-- ==== Sys2Proof/Word.lean ====
section
/-! DEFINITION. The word, byte and lane types of ARE-1, the lane tuples the two permutations act on, and the names
of the decoded field values of a command word. -/

namespace Sys2Proof

/-- One byte of a lane or of the register window (R6). -/
abbrev Byte := BitVec 8

/-- One 32-bit register word, the only width a host access has (R52). -/
abbrev Word := BitVec 32

/-- A lane: an opaque 128-bit value whose only operations are XOR, byte load and store, and the AES round (R6, R8). -/
abbrev Lane := BitVec 128

/-- `State256` of R120: the pair of lanes `(x0, x1)`, 256 bits. -/
structure State256 where
  x0 : Lane
  x1 : Lane
deriving DecidableEq, Repr, Inhabited

/-- `State512` of R120: the 4-tuple of lanes `(x0, x1, x2, x3)`, 512 bits.
The same shape is the lane register file `IN[0..3]` (R22) and `OUT[0..3]` (R23). -/
structure Lanes where
  x0 : Lane
  x1 : Lane
  x2 : Lane
  x3 : Lane
deriving DecidableEq, Repr, Inhabited

/-- `op` of the pending-command record: `AESR` or `PERM` (R27). -/
inductive Op where
  | aesr
  | perm
deriving DecidableEq, Repr

/-- The state width a command selects with its `W` bit: 256 bits (2 lanes) or 512 bits (4 lanes) (R70). -/
inductive Width where
  | w256
  | w512
deriving DecidableEq, Repr

/-- The three legal values of the feed-forward field `FF` (R70): none, the chaining half (Davies–Meyer), the message
half (Matyas–Meyer–Oseas).
The fourth code `11` is reserved and no accepted command carries it (R74). -/
inductive FeedForward where
  | off
  | chaining
  | message
deriving DecidableEq, Repr

/-- `N`: how many lanes a width has (R5, R140). -/
def Width.lanes : Width → Nat
  | .w256 => 2
  | .w512 => 4

end Sys2Proof
end

