-- ==== Sys2Proof/Config.lean ====
section
/-! DEFINITION. What one build of ARE-1 fixes and the source leaves OPEN (R5, R30, R121): the round parameters of the
two permutations, the base address of the register window, and the free values of the model. None has a body, so no
proof can see a value of it. -/

namespace Sys2Proof

/-- The round parameters of R121: the round counts, the round constants and the round functions of both permutations.
A count is held as "one less", so that exactly the counts R121 allows (`ROUNDS ≥ 1`) can be written.
The round functions are total and nothing else is assumed of them, bijectivity in particular. -/
structure RoundParams where
  /-- `ROUNDS256 - 1` -/
  more256 : Nat
  /-- `ROUNDS512 - 1` -/
  more512 : Nat
  rc256 : Fin (more256 + 1) → Lane
  rc512 : Fin (more512 + 1) → Lane
  round256 : Fin (more256 + 1) → Lane → State256 → State256
  round512 : Fin (more512 + 1) → Lane → Lanes → Lanes
deriving Inhabited

/-- `ROUNDS256` (R5): at least 1. -/
def RoundParams.rounds256 (c : RoundParams) : Nat := c.more256 + 1

/-- `ROUNDS512` (R5): at least 1. -/
def RoundParams.rounds512 (c : RoundParams) : Nat := c.more512 + 1

/-- The round parameters of the build at hand: fixed, never configurable, and OPEN (R30, R121; assumption 1). -/
opaque Config.build : RoundParams

/-- Which 256-byte page of the platform's address space the window occupies: OPEN (R50; assumption 2). -/
opaque Config.basePage : Nat

/-- `ARE_BASE`: a multiple of 256 the platform chooses (R5, R50). -/
def Config.areBase : Nat := 256 * Config.basePage

/-- The n-th draw of R56: what a read of `OUT` returns while a command is in flight.
It is a free value: any 32-bit value, fresh at each such read, under no law (assumption 3). -/
opaque Config.freeWord : Nat → Word

/-- The constant the identification register reads as (R2, R26). -/
def Config.idValue : Word := 0x41524501#32

end Sys2Proof
end

