-- ==== Sys2Proof/Syntax.lean ====
section
/-! DEFINITION. The syntax of what the outside world presents to ARE-1: the seven commands of the opcode table, and the
host access that carries them and moves data. -/

namespace Sys2Proof

/-- The seven commands of R72, one constructor per row of the opcode table.
A command has no operand fields: its operands are the fixed registers `IN[0..3]` and `K`, its results `OUT[0..3]`
(R71). -/
inductive Instr where
  /-- `AESR`, one AES round on one lane (R107). -/
  | aesr
  /-- `PERM256`, the Areion-256 permutation (R126). -/
  | perm256
  /-- `PERM512`, the Areion-512 permutation (R127). -/
  | perm512
  /-- `DM256`, Davies–Meyer over Areion-256 (R144). -/
  | dm256
  /-- `DM512`, Davies–Meyer over Areion-512 (R145). -/
  | dm512
  /-- `MMO256`, Matyas–Meyer–Oseas feed-forward over Areion-256 (R146). -/
  | mmo256
  /-- `MMO512`, Matyas–Meyer–Oseas feed-forward over Areion-512 (R147). -/
  | mmo512
deriving DecidableEq, Repr

/-- All seven commands, in the order of R72. -/
def Instr.all : List Instr := [.aesr, .perm256, .perm512, .dm256, .dm512, .mmo256, .mmo512]

/-- The mnemonic of a command, in capitals, letter by letter (R72, R76). -/
def Instr.mnemonic : Instr → List Char
  | .aesr => ['A', 'E', 'S', 'R']
  | .perm256 => ['P', 'E', 'R', 'M', '2', '5', '6']
  | .perm512 => ['P', 'E', 'R', 'M', '5', '1', '2']
  | .dm256 => ['D', 'M', '2', '5', '6']
  | .dm512 => ['D', 'M', '5', '1', '2']
  | .mmo256 => ['M', 'M', 'O', '2', '5', '6']
  | .mmo512 => ['M', 'M', 'O', '5', '1', '2']

/-- The command a spelling names: the mnemonic alone, in capitals or not (R76). -/
def Instr.ofMnemonic (cs : List Char) : Option Instr :=
  Instr.all.find? fun i => decide (i.mnemonic = cs.map Char.toUpper)

/-- One access the host presents at the block's port: `MemRead(ARE_BASE + offset, bytes)` when `write` is `none`, and
`MemWrite(ARE_BASE + offset, bytes, v)` when it is `some v` (R7, R52).
An access of any width and offset can be written down; only some of them are defined (R52, R53). -/
structure Access where
  /-- `addr - ARE_BASE` (R50) -/
  offset : Nat
  /-- the width in bytes -/
  bytes : Nat
  /-- `none` for a read, the low 32 bits of the value for a write -/
  write : Option Word
deriving DecidableEq, Repr

/-- `MemRead(ARE_BASE + o, 4)`, the access `rd32 o` of R77. -/
def Access.rd32 (o : Nat) : Access := { offset := o, bytes := 4, write := none }

/-- `MemWrite(ARE_BASE + o, 4, v)`, the access `wr32 o, v` of R77. -/
def Access.wr32 (o : Nat) (v : Word) : Access := { offset := o, bytes := 4, write := some v }

end Sys2Proof
end

