-- ==== Sys2Proof/WellFormed.lean ====
section
/-! DEFINITION. Which terms of the syntax are well formed: which host accesses the block defines (R52), and that every
command is well formed because it has no operand that could be wrong (R71). -/

namespace Sys2Proof

/-- The three ways an access lies outside what R52 defines. -/
inductive AccessDefect where
  | outsideWindow
  | width
  | misaligned
deriving DecidableEq, Repr

/-- What is wrong with an access, if anything: it does not start in the 256-byte window (R50), it is not 32 bits wide,
or its offset is no multiple of 4 (R52, R53). -/
def Access.defect (a : Access) : Option AccessDefect :=
  if 0x100 ≤ a.offset then some .outsideWindow
  else if a.bytes ≠ 4 then some .width
  else if a.offset % 4 ≠ 0 then some .misaligned
  else none

/-- The accesses R52 defines: 32 bits wide, at an offset that is a multiple of 4 and at most `0xFC`. -/
def Access.wellFormed (a : Access) : Bool := a.defect.isNone

/-- A command has no operand fields, so every command is well formed (R71, R72). -/
def Instr.wellFormed : Instr → Bool
  | .aesr => true
  | .perm256 => true
  | .perm512 => true
  | .dm256 => true
  | .dm512 => true
  | .mmo256 => true
  | .mmo512 => true

end Sys2Proof
end

