-- ==== Sys2Proof/Decode.lean ====
section
/-! DEFINITION. The command encoding: fields, decoder, encoder (30_encoding.md). -/

namespace Sys2Proof

/-- The four fields of a command word (R70). -/
structure Fields where
  opc : BitVec 4
  w : BitVec 1
  ff : BitVec 2
  rsv : BitVec 25
deriving DecidableEq, Repr

/-- `decode(w) = (OPC = w[3:0], W = w[4], FF = w[6:5], RSV = w[31:7])` (R71). -/
def fieldsOf (w : Word) : Fields :=
  { opc := w.extractLsb' 0 4, w := w.extractLsb' 4 1, ff := w.extractLsb' 5 2, rsv := w.extractLsb' 7 25 }

/-- The command word with the given fields: `RSV` at the top, then `FF`, `W` and `OPC` (R70). -/
def Fields.word (f : Fields) : Word := (f.rsv ++ f.ff ++ f.w ++ f.opc).cast (by decide)

/-- `legal(w)`, as R73 writes it. -/
def legal (w : Word) : Bool :=
  w == 0x00000001#32 || ((fieldsOf w).rsv == 0 && (fieldsOf w).opc == 0x2#4 && (fieldsOf w).ff != 0b11#2)

/-- Why a word is no command (R74).
`truncated` is for a byte sequence that does not hold the four bytes of a word. -/
inductive Illegal where
  | reservedBits
  | reservedOpcode
  | reservedFeedForward
  | aesrFields
  | truncated
deriving DecidableEq, Repr

/-- What the decoder reads from a word: a command, or the reason there is none. -/
inductive Decoded where
  | command (i : Instr)
  | illegal (why : Illegal)
deriving DecidableEq, Repr

/-- The command read, if there is one. -/
def Decoded.instr? : Decoded → Option Instr
  | .command i => some i
  | .illegal _ => none

/-- The permutation commands: `W` names the engine and `FF` the feed-forward (R70, R71). -/
def decodePerm (w : BitVec 1) (ff : BitVec 2) : Decoded :=
  if ff = 0b00#2 then .command (if w = 0 then .perm256 else .perm512)
  else if ff = 0b01#2 then .command (if w = 0 then .dm256 else .dm512)
  else if ff = 0b10#2 then .command (if w = 0 then .mmo256 else .mmo512)
  else .illegal .reservedFeedForward

/-- The decoder on fields (R70, R72, R74). -/
def decodeFields (f : Fields) : Decoded :=
  if f.rsv ≠ 0 then .illegal .reservedBits
  else if f.opc = 0x1#4 then
    if f.w = 0 ∧ f.ff = 0 then .command .aesr else .illegal .aesrFields
  else if f.opc = 0x2#4 then decodePerm f.w f.ff
  else .illegal .reservedOpcode

/-- The decoder: total on every 32-bit word, every illegal word rejected by name (R73, R74). -/
def decode (w : Word) : Decoded := decodeFields (fieldsOf w)

/-- A register word is little-endian: `b0` is the byte at the lowest offset (R55). -/
def wordOfBytes (b0 b1 b2 b3 : Byte) : Word := (b3 ++ b2 ++ b1 ++ b0).cast (by decide)

/-- The decoder on the bytes of a command word, lowest offset first (R55): the command and the bytes that follow it. -/
def decodeBytes : List Byte → Decoded × List Byte
  | b0 :: b1 :: b2 :: b3 :: rest => (decode (wordOfBytes b0 b1 b2 b3), rest)
  | rest => (.illegal .truncated, rest)

/-- The fields of each command, row by row of R72. -/
def Instr.fields : Instr → Fields
  | .aesr => { opc := 0x1#4, w := 0, ff := 0b00#2, rsv := 0 }
  | .perm256 => { opc := 0x2#4, w := 0, ff := 0b00#2, rsv := 0 }
  | .perm512 => { opc := 0x2#4, w := 1, ff := 0b00#2, rsv := 0 }
  | .dm256 => { opc := 0x2#4, w := 0, ff := 0b01#2, rsv := 0 }
  | .dm512 => { opc := 0x2#4, w := 1, ff := 0b01#2, rsv := 0 }
  | .mmo256 => { opc := 0x2#4, w := 0, ff := 0b10#2, rsv := 0 }
  | .mmo512 => { opc := 0x2#4, w := 1, ff := 0b10#2, rsv := 0 }

/-- The encoder: the command word of a command (R70, R72). -/
def encode (i : Instr) : Word := i.fields.word

/-- The bytes of a word as the window holds them, lowest offset first (R55). -/
def bytesOfWord (w : Word) : List Byte :=
  [w.extractLsb' 0 8, w.extractLsb' 8 8, w.extractLsb' 16 8, w.extractLsb' 24 8]

/-- `op = (w[3:0] = 0x1 ? AESR : PERM)` of an accepted command (R201). -/
def Instr.op : Instr → Op
  | .aesr => .aesr
  | .perm256 => .perm
  | .perm512 => .perm
  | .dm256 => .perm
  | .dm512 => .perm
  | .mmo256 => .perm
  | .mmo512 => .perm

/-- The width an accepted command's `W` bit names (R72, R201). -/
def Instr.width : Instr → Width
  | .aesr => .w256
  | .perm256 => .w256
  | .perm512 => .w512
  | .dm256 => .w256
  | .dm512 => .w512
  | .mmo256 => .w256
  | .mmo512 => .w512

/-- The feed-forward an accepted command's `FF` field names (R72, R201). -/
def Instr.ff : Instr → FeedForward
  | .aesr => .off
  | .perm256 => .off
  | .perm512 => .off
  | .dm256 => .chaining
  | .dm512 => .chaining
  | .mmo256 => .message
  | .mmo512 => .message

/-- The `W` bit that encodes a width (R70). -/
def Width.bit : Width → BitVec 1
  | .w256 => 0
  | .w512 => 1

/-- The `FF` code that encodes a feed-forward (R70). -/
def FeedForward.code : FeedForward → BitVec 2
  | .off => 0b00#2
  | .chaining => 0b01#2
  | .message => 0b10#2

/-- The `OPC` code that selects an operation (R70). -/
def Op.code : Op → BitVec 4
  | .aesr => 0x1#4
  | .perm => 0x2#4

/-- The 32-bit command word whose low `nbits` bits are those of `w` and whose other bits are 0. -/
def tableWord (nbits w : Nat) : Word := BitVec.ofNat 32 (w % 2 ^ nbits)

/-- The command the decoder reads from an opcode-table word, laid out little-endian; a word that needs more than the 32
bits a command has is no command (R70). -/
def decodeTableWord (nbits w : Nat) : Option Instr :=
  if w % 2 ^ nbits < 2 ^ 32 then (decodeBytes (bytesOfWord (tableWord nbits w))).1.instr? else none

end Sys2Proof
end

