-- ==== Sys2Proof/Machine/State.lean ====
section
/-! DEFINITION. The state of one ARE-1 instance with what the outside world presents to it, the reasons a step can stop,
and the state after reset. -/

namespace Sys2Proof.Machine

open Sys2Proof

/-- The fields of the `STATUS` register (R25).
The reserved bits are no state: they read 0 (`Status.word`). -/
structure Status where
  /-- bit 0: a command has been accepted and has not completed -/
  busy : Bool
  /-- bit 1: the last accepted command has completed -/
  done : Bool
  /-- bit 2: a command word was rejected since the last accepted command -/
  err : Bool
  /-- bits 7:4: the code of the most recent rejection (R202) -/
  ecode : BitVec 4
deriving DecidableEq, Repr

/-- The record `(op, W, FF, X[0..3], KL)` the pending-command latch holds (R27). -/
structure Pending where
  op : Op
  width : Width
  ff : FeedForward
  /-- `X[i]`, the copy of `IN[i]` taken at acceptance -/
  x : Lanes
  /-- `KL`, the copy of `K` taken at acceptance -/
  kl : Lane
deriving DecidableEq, Repr

/-- The architectural state of one ARE instance, all of R20 but `ID`, which is a constant (`Config.idValue`, R26). -/
structure Regs where
  /-- `CMDR`, the last accepted command word (R24) -/
  cmdr : Word
  /-- `STATUS` (R25) -/
  status : Status
  /-- `K`, the round-constant operand of `AESR` (R21) -/
  k : Lane
  /-- `IN[0..3]` (R22) -/
  ins : Lanes
  /-- `OUT[0..3]` (R23) -/
  outs : Lanes
  /-- `PEND`, the pending-command latch (R27) -/
  pend : Option Pending
deriving DecidableEq, Repr

/-- What the outside presents next, or which agent moves next (R207): one entry per step.
The list of them in `State.inputs` is the schedule of R61: the engine's turn may stand between any two accesses. -/
inductive Input where
  /-- the host's next access reaches the port -/
  | access (a : Access)
  /-- the engine has the next turn: it completes the pending command, if there is one (R205) -/
  | engine
  /-- the reset input is asserted (R230) -/
  | resetAsserted
  /-- the reset input is released (R231) -/
  | resetReleased
deriving DecidableEq, Repr

/-- The registers of the block (R20), and the model's own fields for the outside world (assumptions 3 to 6). -/
structure State where
  /-- the block's architectural state -/
  regs : Regs
  /-- the level of the reset input: `true` while it is asserted (R230, R231) -/
  inReset : Bool
  /-- what the outside presents, the next entry first; the model's own field -/
  inputs : List Input
  /-- the values the port has returned to host reads, the newest first; the model's own field -/
  replies : List Word
  /-- how many free values have been drawn (`Config.freeWord`); the model's own field -/
  draws : Nat
deriving DecidableEq, Repr

/-- The reasons the block stops with a fault: there are none, "The block has no traps, no faults and no data-dependent
failures" (R200).
A rejected command word is a record in `STATUS`, after which the machine goes on (R201, R209). -/
inductive Fault where
deriving DecidableEq, Repr

/-- The reasons a step has no meaning.
All but the first are the refusals the spec itself asks a model for (R53, R210, R231); each is safe. -/
inductive Refusal where
  /-- An arm of `exec` with no meaning yet; no arm raises it.
  Safe. -/
  | notModelled (mnemonic : String)
  /-- Raised by the port for an access that is not 32 bits wide (R53).
  Safe. -/
  | accessWidth
  /-- Raised by the port for an access whose offset is no multiple of 4 (R53).
  Safe. -/
  | accessMisaligned
  /-- Raised by the port for an address outside the 256-byte window, which is the platform's (R50, R51).
  Safe. -/
  | outsideWindow
  /-- Raised by the port for any access while reset is asserted (R231).
  Safe. -/
  | accessDuringReset
deriving DecidableEq, Repr

/-- What one step answers. -/
abbrev Result := Host.Outcome State Fault Refusal

/-- `STATUS = 0`: the block is idle and nothing is recorded (R31, R232). -/
def Status.reset : Status := { busy := false, done := false, err := false, ecode := 0 }

/-- Four lanes of 128 zero bits (R31). -/
def zeroLanes : Lanes := { x0 := 0, x1 := 0, x2 := 0, x3 := 0 }

/-- The value of every register after reset (R31, R230). -/
def Regs.reset : Regs :=
  { cmdr := 0, status := Status.reset, k := 0, ins := zeroLanes, outs := zeroLanes, pend := none }

/-- The machine right after reset: reset is released, nothing is presented to it and nothing has been returned
(R31; assumptions 3 to 6 for the model's own fields). -/
def State.reset : State :=
  { regs := Regs.reset, inReset := false, inputs := [], replies := [], draws := 0 }

end Sys2Proof.Machine
end

