-- ==== Sys2Proof/Machine/Operands.lean ====
section
/-! DEFINITION. The operand forms: the bytes and the 32-bit words of a lane, the lanes of a register file, and the map
of the register window (20_memory.md). -/

namespace Sys2Proof.Machine

open Sys2Proof

/-- `byte_j(v) = v[8j+7:8j]`, lane byte `j` (R6, R54). -/
def laneByte (v : Lane) (j : Nat) : Byte := v.extractLsb' (8 * j) 8

/-- `store(lane)`, the sixteen bytes of a lane, byte 0 first (R54). -/
def storeLane (v : Lane) : List Byte := (List.range 16).map (laneByte v)

/-- `lane[32q+31 : 32q]`, the word of a lane at word position `q` (R55). -/
def laneWord (v : Lane) (q : Fin 4) : Word := v.extractLsb' (32 * q.val) 32

/-- The lane made of four words, as `rdlane` joins them: `{t3, t2, t1, t0}` (R78). -/
def laneOfWords (t0 t1 t2 t3 : Word) : Lane := (t3 ++ t2 ++ t1 ++ t0).cast (by decide)

/-- `load(b0..b15) = {b15, b14, ..., b0}`: the four words of the lane, each little-endian (R54, R55). -/
def loadLane (b : Nat → Byte) : Lane :=
  laneOfWords (wordOfBytes (b 0) (b 1) (b 2) (b 3)) (wordOfBytes (b 4) (b 5) (b 6) (b 7))
    (wordOfBytes (b 8) (b 9) (b 10) (b 11)) (wordOfBytes (b 12) (b 13) (b 14) (b 15))

/-- `lane[32q+31 : 32q] <- v`: only the addressed 32 bits change (R57). -/
def setLaneWord (x : Lane) (q : Fin 4) (v : Word) : Lane :=
  match q with
  | 0 => laneOfWords v (laneWord x 1) (laneWord x 2) (laneWord x 3)
  | 1 => laneOfWords (laneWord x 0) v (laneWord x 2) (laneWord x 3)
  | 2 => laneOfWords (laneWord x 0) (laneWord x 1) v (laneWord x 3)
  | 3 => laneOfWords (laneWord x 0) (laneWord x 1) (laneWord x 2) v

/-- Lane `i` of a register file (R22, R23). -/
def laneAt (r : Lanes) (i : Fin 4) : Lane :=
  match i with
  | 0 => r.x0
  | 1 => r.x1
  | 2 => r.x2
  | 3 => r.x3

/-- A register file with lane `i` replaced (R22). -/
def setLane (r : Lanes) (i : Fin 4) (v : Lane) : Lanes :=
  match i with
  | 0 => { r with x0 := v }
  | 1 => { r with x1 := v }
  | 2 => { r with x2 := v }
  | 3 => { r with x3 := v }

/-- The registers of the window, one per aligned offset (R51).
`k q`, `input i q` and `output i q` are the word at position `q` of the lane. -/
inductive Slot where
  | id
  | cmd
  | status
  | k (q : Fin 4)
  | input (i : Fin 4) (q : Fin 4)
  | output (i : Fin 4) (q : Fin 4)
  | reserved
deriving DecidableEq, Repr

/-- The word position of an offset inside its lane: `o = L + 4q` (R55). -/
def wordIndex (o : Nat) : Fin 4 := Fin.ofNat 4 (o / 4)

/-- The lane number of an offset in a file that starts at `base`: `o = base + 16i + 4q` (R51). -/
def laneIndex (base o : Nat) : Fin 4 := Fin.ofNat 4 ((o - base) / 16)

/-- The window map of R51: the register at an aligned offset. -/
def slotAt (o : Nat) : Slot :=
  if o = 0x00 then .id
  else if o = 0x04 then .cmd
  else if o = 0x08 then .status
  else if o < 0x10 then .reserved
  else if o < 0x20 then .k (wordIndex o)
  else if o < 0x60 then .input (laneIndex 0x20 o) (wordIndex o)
  else if o < 0xA0 then .output (laneIndex 0x60 o) (wordIndex o)
  else .reserved

/-- Whether the slot is a word of `OUT`, the only one whose read can be a draw (R56). -/
def Slot.isOutput : Slot → Bool
  | .output _ _ => true
  | _ => false

/-- The access at the window offset of a platform address, when the address lies in the window at `ARE_BASE` (R50).
Addresses outside it belong to the platform. -/
def windowAccess (addr bytes : Nat) (write : Option Word) : Option Access :=
  if Config.areBase ≤ addr ∧ addr < Config.areBase + 0x100 then
    some { offset := addr - Config.areBase, bytes := bytes, write := write }
  else none

end Sys2Proof.Machine
end

