-- ==== Sys2Proof/Machine/AesStage.lean ====
section
/-! DEFINITION. The AES-round mixing stage (40_aes_round.md): SubBytes, ShiftRows, MixColumns, the round and the last
round. One fixed function of its operands (R108; assumption 7). -/

namespace Sys2Proof.Machine

open Sys2Proof

/-- The S-box table of R100, rows 0 to 7 (row = high nibble, column = low nibble). -/
def sboxRowsLow : List (List Byte) :=
  [[0x63, 0x7c, 0x77, 0x7b, 0xf2, 0x6b, 0x6f, 0xc5, 0x30, 0x01, 0x67, 0x2b, 0xfe, 0xd7, 0xab, 0x76],
   [0xca, 0x82, 0xc9, 0x7d, 0xfa, 0x59, 0x47, 0xf0, 0xad, 0xd4, 0xa2, 0xaf, 0x9c, 0xa4, 0x72, 0xc0],
   [0xb7, 0xfd, 0x93, 0x26, 0x36, 0x3f, 0xf7, 0xcc, 0x34, 0xa5, 0xe5, 0xf1, 0x71, 0xd8, 0x31, 0x15],
   [0x04, 0xc7, 0x23, 0xc3, 0x18, 0x96, 0x05, 0x9a, 0x07, 0x12, 0x80, 0xe2, 0xeb, 0x27, 0xb2, 0x75],
   [0x09, 0x83, 0x2c, 0x1a, 0x1b, 0x6e, 0x5a, 0xa0, 0x52, 0x3b, 0xd6, 0xb3, 0x29, 0xe3, 0x2f, 0x84],
   [0x53, 0xd1, 0x00, 0xed, 0x20, 0xfc, 0xb1, 0x5b, 0x6a, 0xcb, 0xbe, 0x39, 0x4a, 0x4c, 0x58, 0xcf],
   [0xd0, 0xef, 0xaa, 0xfb, 0x43, 0x4d, 0x33, 0x85, 0x45, 0xf9, 0x02, 0x7f, 0x50, 0x3c, 0x9f, 0xa8],
   [0x51, 0xa3, 0x40, 0x8f, 0x92, 0x9d, 0x38, 0xf5, 0xbc, 0xb6, 0xda, 0x21, 0x10, 0xff, 0xf3, 0xd2]]

/-- The S-box table of R100, rows 8 to f. -/
def sboxRowsHigh : List (List Byte) :=
  [[0xcd, 0x0c, 0x13, 0xec, 0x5f, 0x97, 0x44, 0x17, 0xc4, 0xa7, 0x7e, 0x3d, 0x64, 0x5d, 0x19, 0x73],
   [0x60, 0x81, 0x4f, 0xdc, 0x22, 0x2a, 0x90, 0x88, 0x46, 0xee, 0xb8, 0x14, 0xde, 0x5e, 0x0b, 0xdb],
   [0xe0, 0x32, 0x3a, 0x0a, 0x49, 0x06, 0x24, 0x5c, 0xc2, 0xd3, 0xac, 0x62, 0x91, 0x95, 0xe4, 0x79],
   [0xe7, 0xc8, 0x37, 0x6d, 0x8d, 0xd5, 0x4e, 0xa9, 0x6c, 0x56, 0xf4, 0xea, 0x65, 0x7a, 0xae, 0x08],
   [0xba, 0x78, 0x25, 0x2e, 0x1c, 0xa6, 0xb4, 0xc6, 0xe8, 0xdd, 0x74, 0x1f, 0x4b, 0xbd, 0x8b, 0x8a],
   [0x70, 0x3e, 0xb5, 0x66, 0x48, 0x03, 0xf6, 0x0e, 0x61, 0x35, 0x57, 0xb9, 0x86, 0xc1, 0x1d, 0x9e],
   [0xe1, 0xf8, 0x98, 0x11, 0x69, 0xd9, 0x8e, 0x94, 0x9b, 0x1e, 0x87, 0xe9, 0xce, 0x55, 0x28, 0xdf],
   [0x8c, 0xa1, 0x89, 0x0d, 0xbf, 0xe6, 0x42, 0x68, 0x41, 0x99, 0x2d, 0x0f, 0xb0, 0x54, 0xbb, 0x16]]

/-- `S[a]`, the AES S-box (R100). -/
def sbox (a : Byte) : Byte :=
  ((sboxRowsLow ++ sboxRowsHigh).getD (a.toNat / 16) []).getD (a.toNat % 16) 0

/-- `2•a = (a << 1) ^ (a[7] ? 0x11B : 0)`, truncated to 8 bits (R103). -/
def gfDouble (a : Byte) : Byte :=
  ((a.setWidth 9 <<< 1) ^^^ (if a.getLsbD 7 then 0x11B#9 else 0#9)).setWidth 8

/-- `3•a = 2•a ^ a` (R103). -/
def gfTriple (a : Byte) : Byte := gfDouble a ^^^ a

/-- `2^n•a`: doubling in the field, `n` times (R100, R103). -/
def gfTimesPower (a : Byte) : Nat → Byte
  | 0 => a
  | n + 1 => gfDouble (gfTimesPower a n)

/-- Multiplication in GF(2^8) modulo `0x11B`, the field in which R100 defines the S-box. -/
def gfMul (a b : Byte) : Byte :=
  (List.range 8).foldl (fun acc n => if b.getLsbD n then acc ^^^ gfTimesPower a n else acc) 0

/-- `Affine(b) = b ^ rotl8(b,1) ^ rotl8(b,2) ^ rotl8(b,3) ^ rotl8(b,4) ^ 0x63` (R100). -/
def affine (b : Byte) : Byte :=
  b ^^^ b.rotateLeft 1 ^^^ b.rotateLeft 2 ^^^ b.rotateLeft 3 ^^^ b.rotateLeft 4 ^^^ 0x63#8

/-- `s[r][c]`: lane byte `j` is `s[j mod 4][j div 4]` (R101). -/
def stateByte (x : Lane) (r c : Nat) : Byte := laneByte x (r + 4 * c)

/-- The lane whose AES state has the entry `m r c` in row `r` and column `c` (R101). -/
def laneOfState (m : Nat → Nat → Byte) : Lane := loadLane fun j => m (j % 4) (j / 4)

/-- `SubBytes(x)` (R100). -/
def subBytes (x : Lane) : Lane := loadLane fun j => sbox (laneByte x j)

/-- `ShiftRows(x)`: `s'[r][c] = s[r][(c + r) mod 4]` (R102). -/
def shiftRows (x : Lane) : Lane := laneOfState fun r c => stateByte x r ((c + r) % 4)

/-- Row `r` of the image of one column `(a0, a1, a2, a3)` under MixColumns (R103). -/
def mixColumn (a0 a1 a2 a3 : Byte) (r : Nat) : Byte :=
  match r with
  | 0 => gfDouble a0 ^^^ gfTriple a1 ^^^ a2 ^^^ a3
  | 1 => a0 ^^^ gfDouble a1 ^^^ gfTriple a2 ^^^ a3
  | 2 => a0 ^^^ a1 ^^^ gfDouble a2 ^^^ gfTriple a3
  | _ => gfTriple a0 ^^^ a1 ^^^ a2 ^^^ gfDouble a3

/-- `MixColumns(x)` (R103). -/
def mixColumns (x : Lane) : Lane :=
  laneOfState fun r c => mixColumn (stateByte x 0 c) (stateByte x 1 c) (stateByte x 2 c) (stateByte x 3 c) r

/-- `AddRoundKey(x, k) = x ^ k` (R104). -/
def addRoundKey (x k : Lane) : Lane := x ^^^ k

/-- `aes_round(x, k) = MixColumns(ShiftRows(SubBytes(x))) ^ k` (R105). -/
def aesRound (x k : Lane) : Lane := addRoundKey (mixColumns (shiftRows (subBytes x))) k

/-- `aes_round_last(x, k) = ShiftRows(SubBytes(x)) ^ k`; no command exposes it (R106). -/
def aesRoundLast (x k : Lane) : Lane := addRoundKey (shiftRows (subBytes x)) k

end Sys2Proof.Machine
end

