-- ==== Sys2Proof/Machine/PermEngine.lean ====
section
/-! DEFINITION. The Areion-256 and Areion-512 permutation engines over the OPEN round parameters (41_permutation.md). -/

namespace Sys2Proof.Machine

open Sys2Proof

/-- The first `k` of `n` rounds, applied in index order: round 0 first (R122, R123). -/
def runRounds {S : Type} {n : Nat} (round : Fin n → S → S) : (k : Nat) → k ≤ n → S → S
  | 0, _, s => s
  | k + 1, h, s => round ⟨k, h⟩ (runRounds round k (Nat.le_of_succ_le h) s)

/-- `P256(x0, x1)`: the rounds `0 .. ROUNDS256 - 1` in order, round `i` with constant `RC256[i]` (R122). -/
def p256 (c : RoundParams) (x : State256) : State256 :=
  runRounds (fun i s => c.round256 i (c.rc256 i) s) (c.more256 + 1) (Nat.le_refl _) x

/-- `P512(x0, x1, x2, x3)`: the rounds `0 .. ROUNDS512 - 1` in order, round `i` with constant `RC512[i]` (R123). -/
def p512 (c : RoundParams) (x : Lanes) : Lanes :=
  runRounds (fun i s => c.round512 i (c.rc512 i) s) (c.more512 + 1) (Nat.le_refl _) x

end Sys2Proof.Machine
end

