-- ==== Sys2Proof/Machine/FeedForwardMask.lean ====
section
/-! DEFINITION. The Davies–Meyer compression wrapper (42_compression.md): the feed-forward mask and the compression
functions over either engine. -/

namespace Sys2Proof.Machine

open Sys2Proof

/-- `FF_MASK(N, FF, X)[i]` (R141): nothing, the chaining half `i < N/2`, or the message half `i ≥ N/2`. -/
def ffMask (w : Width) (ff : FeedForward) (x : Lanes) (i : Fin 4) : Lane :=
  match ff with
  | .off => 0
  | .chaining => if i.val < w.lanes / 2 then laneAt x i else 0
  | .message => if w.lanes / 2 ≤ i.val then laneAt x i else 0

/-- `C_FF(X) = P256(X0, X1) ^ FF_MASK(2, FF, X)`, lane by lane (R142). -/
def compress256 (c : RoundParams) (ff : FeedForward) (x : Lanes) : State256 :=
  let y := p256 c { x0 := x.x0, x1 := x.x1 }
  { x0 := y.x0 ^^^ ffMask .w256 ff x 0, x1 := y.x1 ^^^ ffMask .w256 ff x 1 }

/-- `C_FF(X) = P512(X0, X1, X2, X3) ^ FF_MASK(4, FF, X)`, lane by lane (R142). -/
def compress512 (c : RoundParams) (ff : FeedForward) (x : Lanes) : Lanes :=
  let y := p512 c x
  { x0 := y.x0 ^^^ ffMask .w512 ff x 0
    x1 := y.x1 ^^^ ffMask .w512 ff x 1
    x2 := y.x2 ^^^ ffMask .w512 ff x 2
    x3 := y.x3 ^^^ ffMask .w512 ff x 3 }

end Sys2Proof.Machine
end

