-- ==== Sys2Proof/Machine/Flags.lean ====
section
/-! DEFINITION. The `STATUS` register: its read value, and what acceptance, completion and the two rejections do to its
fields (R25, R201, R202, R205). -/

namespace Sys2Proof.Machine

open Sys2Proof

/-- `STATUS = zext_32({ECODE[3:0], 0b0, ERR, DONE, BUSY})` (R25). -/
def Status.word (s : Status) : Word :=
  (s.ecode ++ 0#1 ++ BitVec.ofBool s.err ++ BitVec.ofBool s.done ++ BitVec.ofBool s.busy).setWidth 32

/-- The two rejections of a command word (R202). -/
inductive CmdError where
  /-- `ILLEGAL_CMD`: a word outside R72 written to `CMD` while idle -/
  | illegalCmd
  /-- `CMD_BUSY`: any word written to `CMD` while a command is in flight -/
  | cmdBusy
deriving DecidableEq, Repr

/-- The code a rejection records in `ECODE` (R202). -/
def CmdError.code : CmdError → BitVec 4
  | .illegalCmd => 1
  | .cmdBusy => 2

/-- The `STATUS` updates of an accepted command (R201). -/
def Status.accepted (_ : Status) : Status := { busy := true, done := false, err := false, ecode := 0 }

/-- The `STATUS` updates of a completion: `ERR` and `ECODE` stay (R205). -/
def Status.completed (s : Status) : Status := { s with busy := false, done := true }

/-- The `STATUS` updates of a rejection: `ERR` and `ECODE` in both, and `DONE` cleared by an illegal word (R201). -/
def Status.rejected (e : CmdError) (s : Status) : Status :=
  match e with
  | .illegalCmd => { s with err := true, ecode := e.code, done := false }
  | .cmdBusy => { s with err := true, ecode := e.code }

end Sys2Proof.Machine
end

