-- ==== Sys2Proof/Machine/Ops.lean ====
section
/-! DEFINITION. The named operations every access and command goes through: rejecting a command word, accepting a
command, completing it, and reading and writing the registers of the window.
Rejection is this block's only exception, recorded in `STATUS` and nowhere else (R7, R202, R203); the block saves no
state, has no vector and no return from it (R209). -/

namespace Sys2Proof.Machine

open Sys2Proof

/-- `raise CmdError(code)`: the status-recorded rejection of a command word (R7, R201, R202).
Every other register is unchanged. -/
def raiseCmdError (e : CmdError) (r : Regs) : Regs := { r with status := r.status.rejected e }

/-- The record an accepted command latches: its decoded fields and copies of `IN[0..3]` and `K` (R27, R201). -/
def pendingOf (i : Instr) (r : Regs) : Pending :=
  { op := i.op, width := i.width, ff := i.ff, x := r.ins, kl := r.k }

/-- The registers after the acceptance of a command (R201, third branch). -/
def latchCommand (i : Instr) (r : Regs) : Regs :=
  { r with cmdr := encode i, pend := some (pendingOf i r), status := r.status.accepted }

/-- A legal command word reaches the acceptance logic: `CMD_BUSY` while a command is in flight, else accepted (R201). -/
def presentCommand (i : Instr) (s : State) : Result :=
  if s.regs.status.busy then .next { s with regs := raiseCmdError .cmdBusy s.regs }
  else .next { s with regs := latchCommand i s.regs }

/-- An illegal word reaches the acceptance logic: `CMD_BUSY` while a command is in flight, else `ILLEGAL_CMD`
(R201, R204). -/
def presentIllegal (s : State) : Result :=
  if s.regs.status.busy then .next { s with regs := raiseCmdError .cmdBusy s.regs }
  else .next { s with regs := raiseCmdError .illegalCmd s.regs }

/-- The result lanes of a pending command, written over the `OUT` registers: lanes beyond those a command writes keep
their values (R205). -/
def resultLanes (p : Pending) (out : Lanes) : Lanes :=
  match p.op with
  | .aesr => { out with x0 := aesRound p.x.x0 p.kl }
  | .perm =>
    match p.width with
    | .w256 =>
      let y := compress256 Config.build p.ff p.x
      { out with x0 := y.x0, x1 := y.x1 }
    | .w512 => compress512 Config.build p.ff p.x

/-- `Complete()` for the pending command `p`: it writes `OUT`, clears `PEND` and updates `STATUS` in one step (R205). -/
def completePending (p : Pending) (r : Regs) : Regs :=
  { r with outs := resultLanes p r.outs, pend := none, status := r.status.completed }

/-- The engine's turn: `Complete` where it is enabled, which is exactly where `PEND ≠ none`; nothing elsewhere (R205). -/
def engineTurn (r : Regs) : Regs :=
  match r.pend with
  | some p => completePending p r
  | none => r

/-- The value a register of the window reads as (R56): `draw` is what an `OUT` word gives while a command is in
flight. -/
def readSlot (sl : Slot) (draw : Word) (r : Regs) : Word :=
  match sl with
  | .id => Config.idValue
  | .cmd => r.cmdr
  | .status => r.status.word
  | .k q => laneWord r.k q
  | .input i q => laneWord (laneAt r.ins i) q
  | .output i q => if r.status.busy then draw else laneWord (laneAt r.outs i) q
  | .reserved => 0

/-- A write to any register of the window but `CMD` (R57): `K` and `IN` take the addressed 32 bits, all others ignore
it. -/
def writeSlot (sl : Slot) (v : Word) (r : Regs) : Regs :=
  match sl with
  | .k q => { r with k := setLaneWord r.k q v }
  | .input i q => { r with ins := setLane r.ins i (setLaneWord (laneAt r.ins i) q v) }
  | .id => r
  | .cmd => r
  | .status => r
  | .output _ _ => r
  | .reserved => r

/-- Whether a read of the slot is a draw: a word of `OUT` while a command is in flight (R56). -/
def readIsDraw (sl : Slot) (r : Regs) : Bool := sl.isOutput && r.status.busy

/-- The reset event: every register takes its reset value and a command in flight is abandoned (R230). -/
def resetRegs (_ : Regs) : Regs := Regs.reset

end Sys2Proof.Machine
end

