-- ==== Sys2Proof/Machine/AesCommand.lean ====
section
/-! DEFINITION. The AES-round command: `AESR` (R107). -/

namespace Sys2Proof.Machine

open Sys2Proof

/-- `AESR` (R107): acceptance latches `(AESR, 0, 00, IN[0..3], K)`; the engine's turn writes
`OUT[0] <- aes_round(X[0], KL)` (`resultLanes`). -/
def execAesr (s : State) : Result := presentCommand .aesr s

end Sys2Proof.Machine
end

