-- ==== Sys2Proof/Machine/CompressCommands.lean ====
section
/-! DEFINITION. The compression commands: `DM256`, `DM512`, `MMO256` and `MMO512` (R144 to R147). -/

namespace Sys2Proof.Machine

open Sys2Proof

/-- `DM256` (R144): acceptance latches `(PERM, 0, 01, IN[0..3], K)`; the engine's turn writes
`OUT[0..1] <- P256(h, m) ^ (h, 0)` (`resultLanes`). -/
def execDm256 (s : State) : Result := presentCommand .dm256 s

/-- `DM512` (R145): acceptance latches `(PERM, 1, 01, IN[0..3], K)`; the engine's turn writes
`OUT[0..3] <- P512(h, m) ^ (h, 0)` (`resultLanes`). -/
def execDm512 (s : State) : Result := presentCommand .dm512 s

/-- `MMO256` (R146): acceptance latches `(PERM, 0, 10, IN[0..3], K)`; the engine's turn writes
`OUT[0..1] <- P256(h, m) ^ (0, m)` (`resultLanes`). -/
def execMmo256 (s : State) : Result := presentCommand .mmo256 s

/-- `MMO512` (R147): acceptance latches `(PERM, 1, 10, IN[0..3], K)`; the engine's turn writes
`OUT[0..3] <- P512(h, m) ^ (0, m)` (`resultLanes`). -/
def execMmo512 (s : State) : Result := presentCommand .mmo512 s

end Sys2Proof.Machine
end

