-- ==== Sys2Proof/Machine/PermCommands.lean ====
section
/-! DEFINITION. The permutation commands: `PERM256` and `PERM512` (R126, R127). -/

namespace Sys2Proof.Machine

open Sys2Proof

/-- `PERM256` (R126): acceptance latches `(PERM, 0, 00, IN[0..3], K)`; the engine's turn writes
`OUT[0..1] <- P256(X[0], X[1])` (`resultLanes`). -/
def execPerm256 (s : State) : Result := presentCommand .perm256 s

/-- `PERM512` (R127): acceptance latches `(PERM, 1, 00, IN[0..3], K)`; the engine's turn writes
`OUT[0..3] <- P512(X[0..3])` (`resultLanes`). -/
def execPerm512 (s : State) : Result := presentCommand .perm512 s

end Sys2Proof.Machine
end

