-- ==== Sys2Proof/Machine/Dispatch.lean ====
section
/-! DEFINITION. The dispatch of a legal command word, presented at `CMD`, to the meaning of its command. -/

namespace Sys2Proof.Machine

open Sys2Proof

/-- The meaning of a command presented at `CMD`, one arm per row of the opcode table. -/
def exec (i : Instr) (s : State) : Host.Outcome State Fault Refusal :=
  match i with
  | .aesr => Sys2Proof.Machine.execAesr s
  | .perm256 => Sys2Proof.Machine.execPerm256 s
  | .perm512 => Sys2Proof.Machine.execPerm512 s
  | .dm256 => Sys2Proof.Machine.execDm256 s
  | .dm512 => Sys2Proof.Machine.execDm512 s
  | .mmo256 => Sys2Proof.Machine.execMmo256 s
  | .mmo512 => Sys2Proof.Machine.execMmo512 s

end Sys2Proof.Machine
end

