-- ==== Sys2Proof/Machine/Port.lean ====
section
/-! DEFINITION. The host port and the block's agents (R207): host reads and writes of the window, the engine's turn and
the reset input, each as one atomic step. -/

namespace Sys2Proof.Machine

open Sys2Proof

/-- `CommandWrite(w)` (R201): the word is decoded and its command, if it is one, is carried out by `exec`. -/
def commandWrite (w : Word) (s : State) : Result :=
  match decode w with
  | .command i => exec i s
  | .illegal _ => presentIllegal s

/-- `MemRead` of a slot (R56): the value goes to the host and no register changes.
A draw uses up one free value (assumption 3). -/
def hostRead (sl : Slot) (s : State) : State :=
  { s with
    replies := readSlot sl (Config.freeWord s.draws) s.regs :: s.replies
    draws := if readIsDraw sl s.regs then s.draws + 1 else s.draws }

/-- `MemWrite` of a slot (R57): a write to `CMD` presents a command word, any other write is `writeSlot`. -/
def hostWrite (sl : Slot) (v : Word) (s : State) : Result :=
  match sl with
  | .cmd => commandWrite v s
  | sl => .next { s with regs := writeSlot sl v s.regs }

/-- The refusal that stands for an access the block does not define (R53). -/
def AccessDefect.refusal : AccessDefect → Refusal
  | .outsideWindow => .outsideWindow
  | .width => .accessWidth
  | .misaligned => .accessMisaligned

/-- One host access at the port: refused while reset is asserted (R231) or where R52 does not define it (R53), else a
read (R56) or a write (R57) of the register at its offset. -/
def performAccess (a : Access) (s : State) : Result :=
  if s.inReset then .refused .accessDuringReset
  else
    match a.defect with
    | some d => .refused (AccessDefect.refusal d)
    | none =>
      match a.write with
      | none => .next (hostRead (slotAt a.offset) s)
      | some v => hostWrite (slotAt a.offset) v s

/-- `MemRead(addr, bytes)` and `MemWrite(addr, bytes, v)` at a platform address (R7, R50): an address outside the window
is the platform's, and the block has no meaning for it. -/
def busAccess (addr bytes : Nat) (write : Option Word) (s : State) : Result :=
  match windowAccess addr bytes write with
  | some a => performAccess a s
  | none => .refused .outsideWindow

/-- The step of the agent an input names (R207). -/
def takeInput (i : Input) (s : State) : Result :=
  match i with
  | .access a => performAccess a s
  | .engine => .next { s with regs := engineTurn s.regs }
  | .resetAsserted => .next { s with regs := resetRegs s.regs, inReset := true }
  | .resetReleased => .next { s with inReset := false }

/-- The step when the outside presents nothing more: the engine has the turn, so a pending command completes after
finitely many accesses (R206); a quiescent block stays as it is. -/
def idleTurn (s : State) : Result := .next { s with regs := engineTurn s.regs }

/-- The access that presents the command word `w` at `CMD` (R24, R57). -/
def commandAccess (w : Word) : Access := Access.wr32 0x04 w

/-- The state in which the host is about to write the word `w` to `CMD`, with reset released. -/
def withCommandWord (w : Word) (s : State) : State :=
  { s with inReset := false, inputs := .access (commandAccess w) :: s.inputs }

end Sys2Proof.Machine
end

