-- ==== Sys2Proof/Machine/Step.lean ====
section
/-! DEFINITION. The step of the machine, and the state about to run a given command word. -/

namespace Sys2Proof.Machine

open Sys2Proof

/-- One step: the next input is consumed and its agent moves; with no input the engine has the turn (R61, R206,
R207). -/
def step (s : State) : Host.Outcome State Fault Refusal :=
  match s.inputs with
  | i :: rest => takeInput i { s with inputs := rest }
  | [] => idleTurn s

/-- The state in which the very next step presents the `nbits`-bit table word `w` at `CMD` (assumption 6). -/
def State.withFetchWord (s : State) (nbits w : Nat) : State := withCommandWord (tableWord nbits w) s

end Sys2Proof.Machine
end

