-- ==== Sys2Proof/Machine/Cand.lean ====
section
/-! DEFINITION. CAND, the named candidate of the OPEN round parameters (41_permutation.md section 4).
It is ASSUMED, not normative, and no step of the machine uses it: the machine runs over `Config.build` (assumption 8). -/

namespace Sys2Proof.Machine

open Sys2Proof

/-- `A1(x) = MixColumns(ShiftRows(SubBytes(x)))` (R105). -/
def a1 (x : Lane) : Lane := aesRound x 0

/-- `A2(x) = ShiftRows(SubBytes(x))` (R106). -/
def a2 (x : Lane) : Lane := aesRoundLast x 0

/-- `RC[0..7]` of R129. -/
def candConstantsLow : List Lane :=
  [0x243f6a8885a308d313198a2e03707344, 0xa4093822299f31d0082efa98ec4e6c89, 0x452821e638d01377be5466cf34e90c6c,
   0xc0ac29b7c97c50dd3f84d5b5b5470917, 0x9216d5d98979fb1bd1310ba698dfb5ac, 0x2ffd72dbd01adfb7b8e1afed6a267e96,
   0xba7c9045f12c7f9924a19947b3916cf7, 0x0801f2e2858efc16636920d871574e69]

/-- `RC[8..14]` of R129. -/
def candConstantsHigh : List Lane :=
  [0xa458fea3f4933d7e0d95748f728eb658, 0x718bcd5882154aee7b54a41dc25a59b5, 0x9c30d5392af26013c5d1b023286085f0,
   0xca417918b8db38ef8e79dcb0603a180e, 0x6c9e0e8bb01e8a3ed71577c1bd314b27, 0x78af2fda55605c60e65525f3aa55ab94,
   0x5748986263e8144055ca396a2aab10b6]

/-- `RC[i]` of R129. -/
def candConstant (i : Nat) : Lane := (candConstantsLow ++ candConstantsHigh).getD i 0

/-- The CAND Areion-256 round, in the rotating form of R130. -/
def candRound256 (rc : Lane) (s : State256) : State256 :=
  { x0 := a1 (a1 s.x0 ^^^ rc) ^^^ s.x1, x1 := a2 s.x0 }

/-- The CAND Areion-512 round, in the rotating form of R131. -/
def candRound512 (rc : Lane) (s : Lanes) : Lanes :=
  { x0 := a1 s.x0 ^^^ s.x1, x1 := a1 (a2 s.x2 ^^^ rc), x2 := a1 s.x2 ^^^ s.x3, x3 := a2 s.x0 }

/-- CAND: 10 rounds of Areion-256 and 15 of Areion-512 (R128), with the constants of R129 and the rounds of R130 and
R131. -/
def cand : RoundParams :=
  { more256 := 9
    more512 := 14
    rc256 := fun i => candConstant i
    rc512 := fun i => candConstant i
    round256 := fun _ => candRound256
    round512 := fun _ => candRound512 }

end Sys2Proof.Machine
end

