-- ==== Sys2Proof/Machine/Script.lean ====
section
/-! DEFINITION. The host script notation of 30_encoding.md section 4 (R76 to R78): the lines a host executes in order, the
expansions of the pseudo-instructions, and a host that runs a script against the block under a given schedule.
The host is no part of the block's state (R20); its variables and its place in the script live here (assumption 9). -/

namespace Sys2Proof.Machine

open Sys2Proof

/-- A lane register as a script names it (R78). -/
inductive LaneReg where
  | k
  | input (i : Fin 4)
  | output (i : Fin 4)
deriving DecidableEq, Repr

/-- `Rbase`, the base offset of a lane register (R51, R78). -/
def LaneReg.base : LaneReg → Nat
  | .k => 0x10
  | .input i => 0x20 + 16 * i.val
  | .output i => 0x60 + 16 * i.val

/-- A 32-bit host variable: a name (numbered), and which of the words `t0..t3` of a lane variable it is (0 for a word
variable). -/
structure Var where
  name : Nat
  part : Nat
deriving DecidableEq, Repr

/-- A host expression: variables, `&` and constants (R77). -/
inductive Expr where
  | word (w : Word)
  | var (x : Var)
  | and (a b : Expr)
deriving DecidableEq, Repr

/-- The primitive lines of R77; a comment has no meaning and no line. -/
inductive Line where
  | wr32 (off : Nat) (v : Expr)
  | rd32 (off : Nat) (x : Var)
  | label (l : Nat)
  | bnz (e : Expr) (l : Nat)
  | bz (e : Expr) (l : Nat)
  | halt
deriving DecidableEq, Repr

/-- A host at a place in its script, with the values of its variables, the latest assignment first. -/
structure Script where
  lines : List Line
  pc : Nat
  vars : List (Var × Word)
deriving DecidableEq, Repr

/-- Why a script goes no further.
Only `halted` is an end R77 gives; the others say that the text is no script of R77, or that the block refused an
access. -/
inductive ScriptStop where
  | halted
  | pastTheEnd
  | noSuchLabel
  | unsetVariable
  | refused (r : Refusal)
deriving DecidableEq, Repr

/-- What one turn of the host, or a run of turns, answers: host and block go on, or the script stops. -/
inductive ScriptResult where
  | running (h : Script) (s : State)
  | stopped (why : ScriptStop) (h : Script) (s : State)
deriving DecidableEq, Repr

/-- The value of a host variable: the latest one assigned. -/
def lookupVar (x : Var) : List (Var × Word) → Option Word
  | [] => none
  | (y, v) :: rest => if y = x then some v else lookupVar x rest

/-- The value of a host expression (R77). -/
def Expr.value (vars : List (Var × Word)) : Expr → Option Word
  | .word w => some w
  | .var x => lookupVar x vars
  | .and a b =>
    match a.value vars, b.value vars with
    | some v, some w => some (v &&& w)
    | _, _ => none

/-- The place of a label in a script (R77).
Of two equal labels it is the first: DESIGN CHOICE, R77 does not say that labels are unique (assumption 9). -/
def labelIndex (l : Nat) : List Line → Option Nat
  | [] => none
  | .label m :: rest => if m = l then some 0 else (labelIndex l rest).map (· + 1)
  | _ :: rest => (labelIndex l rest).map (· + 1)

/-- The host with its next line to execute moved on by one. -/
def Script.advance (h : Script) : Script := { h with pc := h.pc + 1 }

/-- The host after a branch: at the label when taken, else at the next line (R77). -/
def branchTurn (taken : Bool) (l : Nat) (h : Script) (s : State) : ScriptResult :=
  if taken then
    match labelIndex l h.lines with
    | some n => .running { h with pc := n } s
    | none => .stopped .noSuchLabel h s
  else .running h.advance s

/-- `wr32 off, v` with the value known (R77). -/
def writeTurn (off : Nat) (v : Word) (h : Script) (s : State) : ScriptResult :=
  match performAccess (.wr32 off v) s with
  | .next t => .running h.advance t
  | .fault r => nomatch r
  | .refused r => .stopped (.refused r) h s

/-- `rd32 off -> x` (R77): the variable takes the value the port returned. -/
def readTurn (off : Nat) (x : Var) (h : Script) (s : State) : ScriptResult :=
  match performAccess (.rd32 off) s with
  | .next t => .running { h.advance with vars := (x, t.replies.headD 0) :: h.vars } t
  | .fault r => nomatch r
  | .refused r => .stopped (.refused r) h s

/-- One turn of the host: it executes the line it stands at (R77). -/
def hostTurn (h : Script) (s : State) : ScriptResult :=
  match h.lines[h.pc]? with
  | none => .stopped .pastTheEnd h s
  | some (.wr32 off e) =>
    match e.value h.vars with
    | some v => writeTurn off v h s
    | none => .stopped .unsetVariable h s
  | some (.rd32 off x) => readTurn off x h s
  | some (.label _) => .running h.advance s
  | some (.bnz e l) =>
    match e.value h.vars with
    | some v => branchTurn (v != 0) l h s
    | none => .stopped .unsetVariable h s
  | some (.bz e l) =>
    match e.value h.vars with
    | some v => branchTurn (v == 0) l h s
    | none => .stopped .unsetVariable h s
  | some .halt => .stopped .halted h s

/-- Whose turn it is: the host's or the engine's (R61, R207). -/
inductive Turn where
  | host
  | engine
deriving DecidableEq, Repr

/-- A script run under a schedule: each entry of the list gives one agent one turn (R61, R206). -/
def runScript : List Turn → Script → State → ScriptResult
  | [], h, s => .running h s
  | .engine :: rest, h, s => runScript rest h { s with regs := engineTurn s.regs }
  | .host :: rest, h, s =>
    match hostTurn h s with
    | .running h' s' => runScript rest h' s'
    | .stopped why h' s' => .stopped why h' s'

/-- `wrlane <R>, <b0 b1 ... b15>` (R78). -/
def wrlaneBytes (r : LaneReg) (b : Nat → Byte) : List Line :=
  [.wr32 (r.base + 0x0) (.word (wordOfBytes (b 0) (b 1) (b 2) (b 3))),
   .wr32 (r.base + 0x4) (.word (wordOfBytes (b 4) (b 5) (b 6) (b 7))),
   .wr32 (r.base + 0x8) (.word (wordOfBytes (b 8) (b 9) (b 10) (b 11))),
   .wr32 (r.base + 0xC) (.word (wordOfBytes (b 12) (b 13) (b 14) (b 15)))]

/-- `wrlane <R>, <name>`: the four words of a lane variable, in the same order (R78). -/
def wrlaneVar (r : LaneReg) (name : Nat) : List Line :=
  [.wr32 (r.base + 0x0) (.var ⟨name, 0⟩), .wr32 (r.base + 0x4) (.var ⟨name, 1⟩),
   .wr32 (r.base + 0x8) (.var ⟨name, 2⟩), .wr32 (r.base + 0xC) (.var ⟨name, 3⟩)]

/-- `rdlane <R> -> <name>` (R78): the words `t0..t3` of the lane variable. -/
def rdlane (r : LaneReg) (name : Nat) : List Line :=
  [.rd32 (r.base + 0x0) ⟨name, 0⟩, .rd32 (r.base + 0x4) ⟨name, 1⟩,
   .rd32 (r.base + 0x8) ⟨name, 2⟩, .rd32 (r.base + 0xC) ⟨name, 3⟩]

/-- `<name> = {t3, t2, t1, t0}`, the lane a lane variable holds (R78). -/
def laneVar (name : Nat) (vars : List (Var × Word)) : Option Lane :=
  match lookupVar ⟨name, 0⟩ vars, lookupVar ⟨name, 1⟩ vars, lookupVar ⟨name, 2⟩ vars, lookupVar ⟨name, 3⟩ vars with
  | some t0, some t1, some t2, some t3 => some (laneOfWords t0 t1 t2 t3)
  | _, _, _, _ => none

/-- `cmd <MNEMONIC>` (R78): the word of R72 written to `CMD`. -/
def cmdLine (i : Instr) : List Line := [.wr32 0x04 (.word (encode i))]

/-- `waitdone -> <s>` with the fresh label `l` (R78). -/
def waitdone (s l : Nat) : List Line :=
  [.label l, .rd32 0x08 ⟨s, 0⟩, .bz (.and (.var ⟨s, 0⟩) (.word 0x2)) l]

/-- `waitidle -> <s>` with the fresh label `l` (R78). -/
def waitidle (s l : Nat) : List Line :=
  [.label l, .rd32 0x08 ⟨s, 0⟩, .bnz (.and (.var ⟨s, 0⟩) (.word 0x1)) l]

end Sys2Proof.Machine
end

