-- ==== Sys2Proof/Safety.lean ====
section
/-! DEFINITION. The terms in which claims about ARE-1 are stated: the invariant of the block, quiescence, and what two
runs may differ in when only `K` differs. -/

namespace Sys2Proof.Machine

open Sys2Proof

/-- The pending record carries the decoded fields of the last accepted word (R24, R27). -/
def pendMatchesCmdr (r : Regs) : Bool :=
  match r.pend with
  | none => true
  | some p =>
    match decode r.cmdr with
    | .command i => p.op == i.op && p.width == i.width && p.ff == i.ff
    | .illegal _ => false

/-- What every reachable register state satisfies: `PEND ≠ none` exactly when `BUSY = 1` (R27), `BUSY` and `DONE` never
together (R25), the code matches `ERR` and the phase it can be raised in (R25, R202), `CMDR` is zero or a legal word
(R24) and is the word in flight or just completed (R27, R236). -/
abbrev Regs.Inv (r : Regs) : Prop :=
  r.status.busy = r.pend.isSome ∧
  ¬(r.status.busy = true ∧ r.status.done = true) ∧
  (r.status.err = false → r.status.ecode = 0) ∧
  (r.status.err = true →
    (r.status.ecode = 1 ∧ r.status.busy = false ∧ r.status.done = false) ∨
    (r.status.ecode = 2 ∧ (r.status.busy = true ∨ r.status.done = true))) ∧
  (r.cmdr = 0 ∨ legal r.cmdr = true) ∧
  (r.status.busy = true ∨ r.status.done = true → legal r.cmdr = true) ∧
  pendMatchesCmdr r = true

/-- The invariant of the machine: the registers satisfy theirs, and hold their reset values while reset is asserted
(R230, R231). -/
abbrev State.Inv (s : State) : Prop := s.regs.Inv ∧ (s.inReset = true → s.regs = Regs.reset)

/-- The block is quiescent when `PEND = none` (R207). -/
abbrev Quiescent (s : State) : Prop := s.regs.pend = none

/-- The registers with `K` and a permutation's copy of it blanked out: what a permutation or compression command may
depend on (R21). -/
def blankK (r : Regs) : Regs :=
  { r with
    k := 0
    pend := r.pend.map fun p => if p.op = .perm then { p with kl := 0 } else p }

/-- Two states that agree on everything but `K` (R21). -/
abbrev SameButK (s t : State) : Prop :=
  { s with regs := blankK s.regs } = { t with regs := blankK t.regs }

/-- The inputs that may show `K` to the host or to a result: a read of one of its words, a draw, of whose value the spec
says nothing, and a write of the `AESR` word to `CMD` (R21, R56). -/
def Input.showsK (r : Regs) : Input → Bool
  | .access a =>
    match a.write, slotAt a.offset with
    | none, .k _ => true
    | none, .output _ _ => r.status.busy
    | some w, .cmd => decode w == .command .aesr
    | _, _ => false
  | .engine => false
  | .resetAsserted => false
  | .resetReleased => false

/-- An input that neither stops the machine nor touches reset: the engine's turn, or an access R52 defines. -/
def Input.keepsRunning : Input → Bool
  | .access a => a.wellFormed
  | .engine => true
  | .resetAsserted => false
  | .resetReleased => false

/-- An input of a host that only polls `STATUS` while the engine may move (R78, R236). -/
def Input.pollsStatus : Input → Bool
  | .access a => a == .rd32 0x08
  | .engine => true
  | .resetAsserted => false
  | .resetReleased => false

/-- Reset is released and the host's access `a` is the next input; `rest` follows it (R61, R231). -/
abbrev AtPort (s : State) (a : Access) (rest : List Input) : Prop :=
  s.inReset = false ∧ s.inputs = .access a :: rest

/-- `n` steps, stopping at the first refusal: `Host.Core.run` of the machine, at the machine's own types. -/
def runSteps : Nat → State → Result
  | 0, s => .next s
  | n + 1, s =>
    match step s with
    | .next t => runSteps n t
    | .fault r => .fault r
    | .refused r => .refused r

end Sys2Proof.Machine
end

