-- ==== Sys2Proof/Certificates/Slice0/Obligations.lean ====
section
/-! DEFINITION. The statements about ARE-1 for the provers, in the order of the spec's files: encoding, acceptance, the
seven commands, completion, the register window, the AES stage, the engines, the wrapper, the agents and reset.
`Config.build`, `Config.basePage` and `Config.freeWord` stand for any value throughout. -/

open Sys2Proof Sys2Proof.Machine

/-- 95_test_vectors.md section 3: the seven legal words and the ten illegal ones written out there, each rejected for
the reason given. -/
def Obligations.WordsOfTheEncodingTableDecode : Prop :=
  decode 0x00000001#32 = .command .aesr ∧
  decode 0x00000002#32 = .command .perm256 ∧
  decode 0x00000012#32 = .command .perm512 ∧
  decode 0x00000022#32 = .command .dm256 ∧
  decode 0x00000032#32 = .command .dm512 ∧
  decode 0x00000042#32 = .command .mmo256 ∧
  decode 0x00000052#32 = .command .mmo512 ∧
  decode 0x00000000#32 = .illegal .reservedOpcode ∧
  decode 0x00000003#32 = .illegal .reservedOpcode ∧
  decode 0x0000000F#32 = .illegal .reservedOpcode ∧
  decode 0x00000011#32 = .illegal .aesrFields ∧
  decode 0x00000021#32 = .illegal .aesrFields ∧
  decode 0x00000062#32 = .illegal .reservedFeedForward ∧
  decode 0x00000072#32 = .illegal .reservedFeedForward ∧
  decode 0x00000082#32 = .illegal .reservedBits ∧
  decode 0x80000012#32 = .illegal .reservedBits ∧
  decode 0x00001002#32 = .illegal .reservedBits

/-- R72, R73: exactly seven words are legal, each matched on all 32 bits, and the decoder reads a command from a word
exactly when the word is that command's encoding; every other word is illegal. -/
def Obligations.DecoderAcceptsExactlyTheSevenWords : Prop :=
  (encode .aesr = 0x00000001#32 ∧ encode .perm256 = 0x00000002#32 ∧ encode .perm512 = 0x00000012#32 ∧
    encode .dm256 = 0x00000022#32 ∧ encode .dm512 = 0x00000032#32 ∧ encode .mmo256 = 0x00000042#32 ∧
    encode .mmo512 = 0x00000052#32) ∧
  (∀ (w : Word) (i : Instr), decode w = .command i ↔ w = encode i) ∧
  (∀ w : Word, legal w = true ↔ ∃ i : Instr, w = encode i) ∧
  (∀ w : Word, legal w = (w == 0x00000001#32 ||
    (w.extractLsb' 7 25 == 0 && w.extractLsb' 0 4 == 0x2#4 && w.extractLsb' 5 2 != 0b11#2))) ∧
  (∀ w : Word, legal w = false ↔ ∃ why : Illegal, decode w = .illegal why)

/-- Decoding the little-endian bytes of an encoded well-formed command gives it back with the bytes after it, and no
other byte sequence decodes to it (R55, R70). -/
def Obligations.ByteDecoderInvertsTheEncoder : Prop :=
  (∀ (i : Instr) (rest : List Byte), i.wellFormed = true →
    decodeBytes (bytesOfWord (encode i) ++ rest) = (.command i, rest)) ∧
  (∀ (bs rest : List Byte) (i : Instr), decodeBytes bs = (.command i, rest) → bs = bytesOfWord (encode i) ++ rest)

/-- R74: a word is illegal exactly when its `OPC` is reserved, its `FF` is `11`, its `RSV` is not zero, or it is an
`AESR` word with `W` or `FF` not zero.
All but seven words are illegal, and one written while idle is rejected with `ECODE = 1`, starts nothing and changes
no lane register. -/
def Obligations.IllegalWordsAreTheReservedOnes : Prop :=
  (∀ w : Word, legal w = false ↔
    (w.extractLsb' 0 4 ≠ 0x1#4 ∧ w.extractLsb' 0 4 ≠ 0x2#4) ∨ w.extractLsb' 5 2 = 0b11#2 ∨ w.extractLsb' 7 25 ≠ 0 ∨
    (w.extractLsb' 0 4 = 0x1#4 ∧ (w.extractLsb' 4 1 = 1#1 ∨ w.extractLsb' 5 2 ≠ 0b00#2))) ∧
  (∃ ws : List Word, ws.Nodup ∧ ws.length = 7 ∧ ∀ w : Word, legal w = true ↔ w ∈ ws) ∧
  (∀ (s : State) (rest : List Input) (w : Word), AtPort s (.wr32 0x04 w) rest → legal w = false →
    s.regs.status.busy = false →
    ∃ t, step s = .next t ∧ t.regs.status.err = true ∧ t.regs.status.ecode = 1 ∧ t.regs.status.busy = false ∧
      t.regs.pend = s.regs.pend ∧ t.regs.cmdr = s.regs.cmdr ∧ t.regs.k = s.regs.k ∧ t.regs.ins = s.regs.ins ∧
      t.regs.outs = s.regs.outs)

/-- What R75 derives from R73: the word `0x00000000`, the reset value of `CMDR`, is illegal, and writing it to an idle
block gives `ILLEGAL_CMD`. -/
def Obligations.ZeroWordIsAnIllegalCommand : Prop :=
  State.reset.regs.cmdr = 0x00000000#32 ∧ legal 0x00000000#32 = false ∧
  ∀ (s : State) (rest : List Input), AtPort s (.wr32 0x04 0x00000000#32) rest → s.regs.status.busy = false →
    step s = .next { s with inputs := rest, regs := { s.regs with
      status := { s.regs.status with err := true, ecode := 1, done := false } } }

/-- R76: each command is named by its mnemonic alone, in capitals and in small letters, and a spelling names a command
exactly when it is the command's mnemonic up to the case of each letter. -/
def Obligations.MnemonicsNameTheCommands : Prop :=
  (∀ i : Instr, Instr.ofMnemonic i.mnemonic = some i) ∧
  (∀ i : Instr, Instr.ofMnemonic (i.mnemonic.map Char.toLower) = some i) ∧
  (∀ (cs : List Char) (i : Instr), Instr.ofMnemonic cs = some i ↔ cs.map Char.toUpper = i.mnemonic)

/-- A step whose input is a write to `CMD` of a word that decodes to a well-formed command is `exec` of that command,
at the state with the input consumed; the state about to run a table word runs it (R24, R57, R63; assumption 6). -/
def Obligations.StepRunsTheDecodedCommand : Prop :=
  (∀ (s : State) (rest : List Input) (w : Word) (i : Instr), AtPort s (.wr32 0x04 w) rest → decode w = .command i →
    i.wellFormed = true → step s = exec i { s with inputs := rest }) ∧
  (∀ (s : State) (nbits w : Nat) (i : Instr), decodeTableWord nbits w = some i →
    step (s.withFetchWord nbits w) = exec i { s with inReset := false })

/-- R201: what a write of any word to `CMD` does: discarded as `CMD_BUSY`, discarded as `ILLEGAL_CMD`, or accepted
with the word's fields and copies of `IN[0..3]` and `K` latched. -/
def Obligations.CommandWriteFollowsTheAcceptanceRule : Prop :=
  ∀ (s : State) (rest : List Input) (w : Word), AtPort s (.wr32 0x04 w) rest →
    (s.regs.status.busy = true →
      step s = .next { s with inputs := rest, regs := { s.regs with
        status := { s.regs.status with err := true, ecode := 2 } } }) ∧
    (s.regs.status.busy = false → legal w = false →
      step s = .next { s with inputs := rest, regs := { s.regs with
        status := { s.regs.status with err := true, ecode := 1, done := false } } }) ∧
    (s.regs.status.busy = false → legal w = true →
      ∃ p : Pending,
        step s = .next { s with inputs := rest, regs := { s.regs with
          cmdr := w
          pend := some p
          status := { busy := true, done := false, err := false, ecode := 0 } } } ∧
        p.op = (if w.extractLsb' 0 4 = 0x1#4 then .aesr else .perm) ∧
        p.width.bit = w.extractLsb' 4 1 ∧ p.ff.code = w.extractLsb' 5 2 ∧ p.x = s.regs.ins ∧ p.kl = s.regs.k)

/-- R203, R204: a rejection records one code and nothing else, whatever was recorded before: `CMD_BUSY` for any word,
illegal ones included, while a command is in flight, and `ILLEGAL_CMD` for an illegal word while idle. `CMDR` keeps
the last accepted word. -/
def Obligations.RejectionRecordsOnlyTheLatestCode : Prop :=
  ∀ (s : State) (rest : List Input) (w : Word), AtPort s (.wr32 0x04 w) rest →
    (s.regs.status.busy = true → ∃ t, step s = .next t ∧ t.regs.status.ecode = 2 ∧ t.regs.status.err = true ∧
      { t.regs with status := s.regs.status } = s.regs) ∧
    (s.regs.status.busy = false → legal w = false → ∃ t, step s = .next t ∧ t.regs.status.ecode = 1 ∧
      t.regs.status.err = true ∧ { t.regs with status := s.regs.status } = s.regs)

/-- R107: `AESR`, word `0x00000001`: acceptance latches `(AESR, 0, 00, IN[0..3], K)`, a write while a command is in
flight is `CMD_BUSY`, and completion writes `OUT[0] <- MixColumns(ShiftRows(SubBytes(X0))) ^ KL` and nothing else of
`OUT`.
The corner cases and the worked example of the rule follow. -/
def Obligations.AesrLatchesThenWritesOneLane : Prop :=
  decode 0x00000001#32 = .command .aesr ∧
  (∀ s : State, s.regs.status.busy = false →
    exec .aesr s = .next { s with regs := { s.regs with
      cmdr := 0x00000001#32
      status := { busy := true, done := false, err := false, ecode := 0 }
      pend := some { op := .aesr, width := .w256, ff := .off, x := s.regs.ins, kl := s.regs.k } } }) ∧
  (∀ s : State, s.regs.status.busy = true →
    exec .aesr s = .next { s with regs := { s.regs with
      status := { s.regs.status with err := true, ecode := 2 } } }) ∧
  (∀ (t : State) (rest : List Input) (x : Lanes) (kl : Lane),
    t.inputs = .engine :: rest →
    t.regs.pend = some { op := .aesr, width := .w256, ff := .off, x := x, kl := kl } →
    step t = .next { t with inputs := rest, regs := { t.regs with
      pend := none
      status := { t.regs.status with busy := false, done := true }
      outs := { t.regs.outs with x0 := mixColumns (shiftRows (subBytes x.x0)) ^^^ kl } } }) ∧
  mixColumns (shiftRows (subBytes 0)) ^^^ 0 = 0x63636363636363636363636363636363#128 ∧
  mixColumns (shiftRows (subBytes 0)) ^^^ 0xffffffffffffffffffffffffffffffff#128 = 0x9c9c9c9c9c9c9c9c9c9c9c9c9c9c9c9c#128 ∧
  mixColumns (shiftRows (subBytes 0xffffffffffffffffffffffffffffffff#128)) ^^^ 0 = 0x16161616161616161616161616161616#128 ∧
  mixColumns (shiftRows (subBytes 0x0848f8e92a8dc69a2be2f4a0bee33d19#128)) ^^^ 0x05766c2a3939a323b12c548817fefaa0#128 =
    0x49506a0243ea5b6b2b359f68f27f9ca4#128

/-- R126: `PERM256`, word `0x00000002`: acceptance, `CMD_BUSY` while a command is in flight, and completion `OUT[0..1]
<- P256(X[0], X[1])` with `OUT[2..3]` and `K` untouched.
The worked example of the rule holds under CAND only, which the spec marks as not normative (assumption 8). -/
def Obligations.Perm256LatchesThenWritesTwoLanes : Prop :=
  decode 0x00000002#32 = .command .perm256 ∧
  (∀ s : State, s.regs.status.busy = false →
    exec .perm256 s = .next { s with regs := { s.regs with
      cmdr := 0x00000002#32
      status := { busy := true, done := false, err := false, ecode := 0 }
      pend := some { op := .perm, width := .w256, ff := .off, x := s.regs.ins, kl := s.regs.k } } }) ∧
  (∀ s : State, s.regs.status.busy = true →
    exec .perm256 s = .next { s with regs := { s.regs with
      status := { s.regs.status with err := true, ecode := 2 } } }) ∧
  (∀ (t : State) (rest : List Input) (x : Lanes) (kl : Lane),
    t.inputs = .engine :: rest →
    t.regs.pend = some { op := .perm, width := .w256, ff := .off, x := x, kl := kl } →
    step t = .next { t with inputs := rest, regs := { t.regs with
      pend := none
      status := { t.regs.status with busy := false, done := true }
      outs := { t.regs.outs with
        x0 := (p256 Config.build { x0 := x.x0, x1 := x.x1 }).x0
        x1 := (p256 Config.build { x0 := x.x0, x1 := x.x1 }).x1 } } }) ∧
  p256 cand { x0 := 0, x1 := 0 } =
    { x0 := 0x96a5f3ee6658f913ecb2301b80f4a7e2#128, x1 := 0xf9745bed5c27b667f4687262c432e393#128 }

/-- R127: `PERM512`, word `0x00000012`: acceptance, `CMD_BUSY` while a command is in flight, and completion `OUT[0..3]
<- P512(X[0..3])` with `K` untouched.
The worked example of the rule holds under CAND only (assumption 8). -/
def Obligations.Perm512LatchesThenWritesFourLanes : Prop :=
  decode 0x00000012#32 = .command .perm512 ∧
  (∀ s : State, s.regs.status.busy = false →
    exec .perm512 s = .next { s with regs := { s.regs with
      cmdr := 0x00000012#32
      status := { busy := true, done := false, err := false, ecode := 0 }
      pend := some { op := .perm, width := .w512, ff := .off, x := s.regs.ins, kl := s.regs.k } } }) ∧
  (∀ s : State, s.regs.status.busy = true →
    exec .perm512 s = .next { s with regs := { s.regs with
      status := { s.regs.status with err := true, ecode := 2 } } }) ∧
  (∀ (t : State) (rest : List Input) (x : Lanes) (kl : Lane),
    t.inputs = .engine :: rest →
    t.regs.pend = some { op := .perm, width := .w512, ff := .off, x := x, kl := kl } →
    step t = .next { t with inputs := rest, regs := { t.regs with
      pend := none
      status := { t.regs.status with busy := false, done := true }
      outs := {
        x0 := (p512 Config.build x).x0
        x1 := (p512 Config.build x).x1
        x2 := (p512 Config.build x).x2
        x3 := (p512 Config.build x).x3 } } }) ∧
  p512 cand { x0 := 0, x1 := 0, x2 := 0, x3 := 0 } =
    { x0 := 0xe6be2bf2f3c0515ef948d066eb82a6e1#128, x1 := 0x9ce6bc72250dc133fd0f105f0fccab12#128,
      x2 := 0x3b7cd072182a2ff9ee08ac523c5a5239#128, x3 := 0x0566e512ec5bcb11fb52600a46ec6aa7#128 }

/-- R144: `DM256`, word `0x00000022`: acceptance, `CMD_BUSY` while a command is in flight, and completion `OUT[0] <-
y0 ^ X[0]`, `OUT[1] <- y1` with `(y0, y1) = P256(X[0], X[1])`.
The worked example of the rule holds under CAND only (assumption 8). -/
def Obligations.Dm256FeedsTheChainingLaneForward : Prop :=
  decode 0x00000022#32 = .command .dm256 ∧
  (∀ s : State, s.regs.status.busy = false →
    exec .dm256 s = .next { s with regs := { s.regs with
      cmdr := 0x00000022#32
      status := { busy := true, done := false, err := false, ecode := 0 }
      pend := some { op := .perm, width := .w256, ff := .chaining, x := s.regs.ins, kl := s.regs.k } } }) ∧
  (∀ s : State, s.regs.status.busy = true →
    exec .dm256 s = .next { s with regs := { s.regs with
      status := { s.regs.status with err := true, ecode := 2 } } }) ∧
  (∀ (t : State) (rest : List Input) (x : Lanes) (kl : Lane),
    t.inputs = .engine :: rest →
    t.regs.pend = some { op := .perm, width := .w256, ff := .chaining, x := x, kl := kl } →
    step t = .next { t with inputs := rest, regs := { t.regs with
      pend := none
      status := { t.regs.status with busy := false, done := true }
      outs := { t.regs.outs with
        x0 := (p256 Config.build { x0 := x.x0, x1 := x.x1 }).x0 ^^^ x.x0
        x1 := (p256 Config.build { x0 := x.x0, x1 := x.x1 }).x1 } } }) ∧
  compress256 cand .chaining { x0 := 0x0f0e0d0c0b0a09080706050403020100#128, x1 := 0x1f1e1d1c1b1a19181716151413121110#128, x2 := 0, x3 := 0 } =
    { x0 := 0x75ac5201555947e94e16298a0ed4ef17#128, x1 := 0xae6b203da453dfd92249f511edbfadc7#128 }

/-- R145: `DM512`, word `0x00000032`: acceptance, `CMD_BUSY` while a command is in flight, and completion `OUT[0..1]
<- (y0 ^ X[0], y1 ^ X[1])`, `OUT[2..3] <- (y2, y3)` with `y = P512(X)`.
The worked example of the rule holds under CAND only (assumption 8). -/
def Obligations.Dm512FeedsTheChainingHalfForward : Prop :=
  decode 0x00000032#32 = .command .dm512 ∧
  (∀ s : State, s.regs.status.busy = false →
    exec .dm512 s = .next { s with regs := { s.regs with
      cmdr := 0x00000032#32
      status := { busy := true, done := false, err := false, ecode := 0 }
      pend := some { op := .perm, width := .w512, ff := .chaining, x := s.regs.ins, kl := s.regs.k } } }) ∧
  (∀ s : State, s.regs.status.busy = true →
    exec .dm512 s = .next { s with regs := { s.regs with
      status := { s.regs.status with err := true, ecode := 2 } } }) ∧
  (∀ (t : State) (rest : List Input) (x : Lanes) (kl : Lane),
    t.inputs = .engine :: rest →
    t.regs.pend = some { op := .perm, width := .w512, ff := .chaining, x := x, kl := kl } →
    step t = .next { t with inputs := rest, regs := { t.regs with
      pend := none
      status := { t.regs.status with busy := false, done := true }
      outs := {
        x0 := (p512 Config.build x).x0 ^^^ x.x0
        x1 := (p512 Config.build x).x1 ^^^ x.x1
        x2 := (p512 Config.build x).x2
        x3 := (p512 Config.build x).x3 } } }) ∧
  (compress512 cand .chaining
    { x0 := 0x0f0e0d0c0b0a09080706050403020100#128, x1 := 0x1f1e1d1c1b1a19181716151413121110#128,
      x2 := 0x2f2e2d2c2b2a29282726252423222120#128, x3 := 0x3f3e3d3c3b3a39383736353433323130#128 }).x0 =
    0x757e3e19ebced3e32cebed2115b5c5e6#128 ∧
  (compress512 cand .chaining
    { x0 := 0x0f0e0d0c0b0a09080706050403020100#128, x1 := 0x1f1e1d1c1b1a19181716151413121110#128,
      x2 := 0x2f2e2d2c2b2a29282726252423222120#128, x3 := 0x3f3e3d3c3b3a39383736353433323130#128 }).x1 =
    0x03e5422e9acd40de3318d70fbeedaef7#128

/-- R146: `MMO256`, word `0x00000042`: acceptance, `CMD_BUSY` while a command is in flight, and completion `OUT[0] <-
y0`, `OUT[1] <- y1 ^ X[1]` with `(y0, y1) = P256(X[0], X[1])`.
The worked example of the rule holds under CAND only (assumption 8). -/
def Obligations.Mmo256FeedsTheMessageLaneForward : Prop :=
  decode 0x00000042#32 = .command .mmo256 ∧
  (∀ s : State, s.regs.status.busy = false →
    exec .mmo256 s = .next { s with regs := { s.regs with
      cmdr := 0x00000042#32
      status := { busy := true, done := false, err := false, ecode := 0 }
      pend := some { op := .perm, width := .w256, ff := .message, x := s.regs.ins, kl := s.regs.k } } }) ∧
  (∀ s : State, s.regs.status.busy = true →
    exec .mmo256 s = .next { s with regs := { s.regs with
      status := { s.regs.status with err := true, ecode := 2 } } }) ∧
  (∀ (t : State) (rest : List Input) (x : Lanes) (kl : Lane),
    t.inputs = .engine :: rest →
    t.regs.pend = some { op := .perm, width := .w256, ff := .message, x := x, kl := kl } →
    step t = .next { t with inputs := rest, regs := { t.regs with
      pend := none
      status := { t.regs.status with busy := false, done := true }
      outs := { t.regs.outs with
        x0 := (p256 Config.build { x0 := x.x0, x1 := x.x1 }).x0
        x1 := (p256 Config.build { x0 := x.x0, x1 := x.x1 }).x1 ^^^ x.x1 } } }) ∧
  compress256 cand .message { x0 := 0x0f0e0d0c0b0a09080706050403020100#128, x1 := 0x1f1e1d1c1b1a19181716151413121110#128, x2 := 0, x3 := 0 } =
    { x0 := 0x7aa25f0d5e534ee149102c8e0dd6ee17#128, x1 := 0xb1753d21bf49c6c1355fe005feadbcd7#128 }

/-- R147: `MMO512`, word `0x00000052`: acceptance, `CMD_BUSY` while a command is in flight, and completion `OUT[0..1]
<- (y0, y1)`, `OUT[2..3] <- (y2 ^ X[2], y3 ^ X[3])` with `y = P512(X)`.
The worked example of the rule holds under CAND only (assumption 8). -/
def Obligations.Mmo512FeedsTheMessageHalfForward : Prop :=
  decode 0x00000052#32 = .command .mmo512 ∧
  (∀ s : State, s.regs.status.busy = false →
    exec .mmo512 s = .next { s with regs := { s.regs with
      cmdr := 0x00000052#32
      status := { busy := true, done := false, err := false, ecode := 0 }
      pend := some { op := .perm, width := .w512, ff := .message, x := s.regs.ins, kl := s.regs.k } } }) ∧
  (∀ s : State, s.regs.status.busy = true →
    exec .mmo512 s = .next { s with regs := { s.regs with
      status := { s.regs.status with err := true, ecode := 2 } } }) ∧
  (∀ (t : State) (rest : List Input) (x : Lanes) (kl : Lane),
    t.inputs = .engine :: rest →
    t.regs.pend = some { op := .perm, width := .w512, ff := .message, x := x, kl := kl } →
    step t = .next { t with inputs := rest, regs := { t.regs with
      pend := none
      status := { t.regs.status with busy := false, done := true }
      outs := {
        x0 := (p512 Config.build x).x0
        x1 := (p512 Config.build x).x1
        x2 := (p512 Config.build x).x2 ^^^ x.x2
        x3 := (p512 Config.build x).x3 ^^^ x.x3 } } }) ∧
  (compress512 cand .message
    { x0 := 0x0f0e0d0c0b0a09080706050403020100#128, x1 := 0x1f1e1d1c1b1a19181716151413121110#128,
      x2 := 0x2f2e2d2c2b2a29282726252423222120#128, x3 := 0x3f3e3d3c3b3a39383736353433323130#128 }).x2 =
    0x96f0724728aaed03753389cc3fa260b9#128 ∧
  (compress512 cand .message
    { x0 := 0x0f0e0d0c0b0a09080706050403020100#128, x1 := 0x1f1e1d1c1b1a19181716151413121110#128,
      x2 := 0x2f2e2d2c2b2a29282726252423222120#128, x3 := 0x3f3e3d3c3b3a39383736353433323130#128 }).x3 =
    0xc3c652abac3b31cd4918c4b8adc63455#128

/-- The frame of presenting any of the seven commands, accepted or turned away: `K`, `IN` and `OUT` are unchanged,
every word of the window but `CMD`, `STATUS` and `OUT` (whose read may become a draw) reads as before, and the model's
own fields are unchanged (R21 to R23, R201). -/
def Obligations.CommandPresentationFrame : Prop :=
  ∀ (i : Instr) (s t : State), exec i s = .next t →
    t.regs.k = s.regs.k ∧ t.regs.ins = s.regs.ins ∧ t.regs.outs = s.regs.outs ∧
    t.inReset = s.inReset ∧ t.inputs = s.inputs ∧ t.replies = s.replies ∧ t.draws = s.draws ∧
    (s.regs.status.busy = true → t.regs.cmdr = s.regs.cmdr ∧ t.regs.pend = s.regs.pend ∧
      t.regs.status.busy = true ∧ t.regs.status.done = s.regs.status.done) ∧
    (∀ (o : Nat) (draw : Word), o ≠ 0x04 → o ≠ 0x08 → o < 0x60 ∨ 0xA0 ≤ o →
      readSlot (slotAt o) draw t.regs = readSlot (slotAt o) draw s.regs)

/-- The engine's turn with a command pending is `Complete` of R205: it writes every `OUT` lane of the command, clears
`PEND` and updates `STATUS`, in one step. `ERR` and `ECODE` and the `OUT` lanes beyond those written keep their
values.
With `PEND = none`, where R205 has no step, that the engine's turn is a step that changes nothing is the model's choice
(assumption 5). -/
def Obligations.CompletionWritesTheResult : Prop :=
  ∀ (s : State) (rest : List Input), s.inputs = .engine :: rest →
    (s.regs.pend = none → step s = .next { s with inputs := rest }) ∧
    (∀ p : Pending, s.regs.pend = some p → ∃ out : Lanes,
      step s = .next { s with inputs := rest, regs := { s.regs with
        outs := out
        pend := none
        status := { s.regs.status with busy := false, done := true } } } ∧
      (p.op = .aesr → out = { s.regs.outs with x0 := aesRound p.x.x0 p.kl }) ∧
      (p.op = .perm → p.width = .w256 → out = { s.regs.outs with
        x0 := (p256 Config.build { x0 := p.x.x0, x1 := p.x.x1 }).x0 ^^^ ffMask .w256 p.ff p.x 0
        x1 := (p256 Config.build { x0 := p.x.x0, x1 := p.x.x1 }).x1 ^^^ ffMask .w256 p.ff p.x 1 }) ∧
      (p.op = .perm → p.width = .w512 → out = {
        x0 := (p512 Config.build p.x).x0 ^^^ ffMask .w512 p.ff p.x 0
        x1 := (p512 Config.build p.x).x1 ^^^ ffMask .w512 p.ff p.x 1
        x2 := (p512 Config.build p.x).x2 ^^^ ffMask .w512 p.ff p.x 2
        x3 := (p512 Config.build p.x).x3 ^^^ ffMask .w512 p.ff p.x 3 }))

/-- The frame of the engine's turn: `CMDR`, `K`, `IN`, `ERR`, `ECODE` and the model's own fields are unchanged, and so
is every word of the window but `STATUS` and the `OUT` lanes; of those `AESR` changes `OUT[0]` only and a 256-bit
command `OUT[0..1]` only (R21 to R23, R205, R238). -/
def Obligations.CompletionFrame : Prop :=
  ∀ (s : State) (rest : List Input), s.inputs = .engine :: rest → ∃ t, step s = .next t ∧
    t.regs.cmdr = s.regs.cmdr ∧ t.regs.k = s.regs.k ∧ t.regs.ins = s.regs.ins ∧
    t.regs.status.err = s.regs.status.err ∧ t.regs.status.ecode = s.regs.status.ecode ∧
    t.inReset = s.inReset ∧ t.inputs = rest ∧ t.replies = s.replies ∧ t.draws = s.draws ∧
    (∀ p : Pending, s.regs.pend = some p →
      (p.op = .aesr → t.regs.outs.x1 = s.regs.outs.x1) ∧
      (p.op = .aesr ∨ p.width = .w256 →
        t.regs.outs.x2 = s.regs.outs.x2 ∧ t.regs.outs.x3 = s.regs.outs.x3)) ∧
    (∀ (o : Nat) (draw : Word), o ≠ 0x08 → o < 0x60 ∨ 0xA0 ≤ o →
      readSlot (slotAt o) draw t.regs = readSlot (slotAt o) draw s.regs)

/-- A result depends on the operands its command reads and on nothing else (R21, R22, R27, R124): `AESR` on `X[0]` and
`KL`, a 256-bit permutation or compression command on `X[0..1]`, a 512-bit one on `X[0..3]`. -/
def Obligations.ResultReadsOnlyTheOperandsOfItsCommand : Prop :=
  ∀ (p p' : Pending) (r r' : Regs), r.pend = some p → r'.pend = some p' → r.outs = r'.outs →
    p.op = p'.op → p.width = p'.width → p.ff = p'.ff →
    (p.op = .aesr → p.x.x0 = p'.x.x0 → p.kl = p'.kl → (engineTurn r).outs = (engineTurn r').outs) ∧
    (p.op = .perm → p.width = .w256 → p.x.x0 = p'.x.x0 → p.x.x1 = p'.x.x1 →
      (engineTurn r).outs = (engineTurn r').outs) ∧
    (p.op = .perm → p.width = .w512 → p.x = p'.x → (engineTurn r).outs = (engineTurn r').outs)

/-- The layout of `STATUS` (R25): `BUSY` is bit 0, `DONE` bit 1, `ERR` bit 2, `ECODE` bits 7:4, and bits 3 and 31:8
read 0. -/
def Obligations.StatusWordLayout : Prop :=
  ∀ s : Status, s.word.getLsbD 0 = s.busy ∧ s.word.getLsbD 1 = s.done ∧ s.word.getLsbD 2 = s.err ∧
    s.word.getLsbD 3 = false ∧ s.word.extractLsb' 4 4 = s.ecode ∧ s.word.extractLsb' 8 24 = 0

/-- In every state that satisfies the invariant, `STATUS` reads as one of six values: the reserved codes never appear
and `BUSY` and `DONE` are never set together (R25, R202; 95_test_vectors.md section 4). -/
def Obligations.StatusIsOneOfSixValues : Prop :=
  ∀ r : Regs, r.Inv → r.status.word ∈ ([0x00, 0x01, 0x02, 0x14, 0x25, 0x26] : List Word)

/-- R56: the value each aligned read returns; no register changes.
A read of `OUT` while a command is in flight returns some value, of which nothing is said, and changes no register
either. -/
def Obligations.ReadReturnsTheRegister : Prop :=
  ∀ (s : State) (rest : List Input) (o : Nat), AtPort s (.rd32 o) rest → o % 4 = 0 → o ≤ 0xFC →
    ∃ (v : Word) (n : Nat), step s = .next { s with inputs := rest, replies := v :: s.replies, draws := n } ∧
      (o = 0x00 → v = 0x41524501#32) ∧
      (o = 0x04 → v = s.regs.cmdr) ∧
      (o = 0x08 → v = s.regs.status.word) ∧
      (∀ q : Fin 4, o = 0x10 + 4 * q.val → v = s.regs.k.extractLsb' (32 * q.val) 32) ∧
      (∀ i q : Fin 4, o = 0x20 + 16 * i.val + 4 * q.val →
        v = (laneAt s.regs.ins i).extractLsb' (32 * q.val) 32) ∧
      (∀ i q : Fin 4, o = 0x60 + 16 * i.val + 4 * q.val → s.regs.status.busy = false →
        v = (laneAt s.regs.outs i).extractLsb' (32 * q.val) 32) ∧
      (o = 0x0C ∨ 0xA0 ≤ o → v = 0x00000000#32)

/-- The model's own form of the draw of R56 (assumption 3): a read of `OUT` while a command is in flight returns the
next free value and uses it up; any other read uses none up.
Nothing is known of the free values. -/
def Obligations.BusyOutputReadDrawsTheNextFreeValue : Prop :=
  ∀ (s : State) (rest : List Input) (o : Nat), AtPort s (.rd32 o) rest → o % 4 = 0 → o ≤ 0xFC →
    (0x60 ≤ o → o < 0xA0 → s.regs.status.busy = true →
      step s = .next { s with inputs := rest, replies := Config.freeWord s.draws :: s.replies, draws := s.draws + 1 }) ∧
    (o < 0x60 ∨ 0xA0 ≤ o ∨ s.regs.status.busy = false → ∃ v : Word,
      step s = .next { s with inputs := rest, replies := v :: s.replies })

/-- R57: what each aligned write does: `CMD` runs `CommandWrite`, `K` and `IN` take the addressed 32 bits and no
others, and every other offset ignores the write. -/
def Obligations.WriteChangesOnlyTheAddressedWord : Prop :=
  ∀ (s : State) (rest : List Input) (o : Nat) (v : Word), AtPort s (.wr32 o v) rest → o % 4 = 0 → o ≤ 0xFC →
    (o = 0x04 → step s = commandWrite v { s with inputs := rest }) ∧
    (∀ q : Fin 4, o = 0x10 + 4 * q.val → ∃ k' : Lane,
      step s = .next { s with inputs := rest, regs := { s.regs with k := k' } } ∧
      ∀ p : Fin 4, k'.extractLsb' (32 * p.val) 32 =
        if p = q then v else s.regs.k.extractLsb' (32 * p.val) 32) ∧
    (∀ i q : Fin 4, o = 0x20 + 16 * i.val + 4 * q.val → ∃ ins' : Lanes,
      step s = .next { s with inputs := rest, regs := { s.regs with ins := ins' } } ∧
      ∀ j p : Fin 4, (laneAt ins' j).extractLsb' (32 * p.val) 32 =
        if j = i ∧ p = q then v else (laneAt s.regs.ins j).extractLsb' (32 * p.val) 32) ∧
    (o = 0x00 ∨ o = 0x08 ∨ o = 0x0C ∨ 0x60 ≤ o → step s = .next { s with inputs := rest })

/-- R58: the reserved offsets `0x0C` and `0xA0` to `0xFC` read as zero and ignore writes. -/
def Obligations.ReservedOffsetsReadZeroAndIgnoreWrites : Prop :=
  ∀ (s : State) (rest : List Input) (o : Nat), o % 4 = 0 → o = 0x0C ∨ (0xA0 ≤ o ∧ o ≤ 0xFC) →
    (AtPort s (.rd32 o) rest → step s = .next { s with inputs := rest, replies := 0x00000000#32 :: s.replies }) ∧
    (∀ v : Word, AtPort s (.wr32 o v) rest → step s = .next { s with inputs := rest })

/-- R59: a read changes no register and, but for a draw, repeating it returns the same value; a write anywhere but at
`CMD` changes only the addressed 32 bits, of `K` or `IN` alone, and repeating it changes nothing more; a legal word
written twice starts one command and raises `CMD_BUSY`, which changes `STATUS` alone. -/
def Obligations.OnlyCommandWritesHaveSideEffects : Prop :=
  (∀ (s : State) (rest : List Input) (o : Nat), AtPort s (.rd32 o) (.access (.rd32 o) :: rest) → o % 4 = 0 → o ≤ 0xFC →
    ∃ t u, step s = .next t ∧ step t = .next u ∧ t.regs = s.regs ∧ u.regs = s.regs ∧
      (o < 0x60 ∨ 0xA0 ≤ o ∨ s.regs.status.busy = false → ∃ v : Word, u.replies = v :: v :: s.replies)) ∧
  (∀ (s : State) (rest : List Input) (o : Nat) (v : Word), AtPort s (.wr32 o v) (.access (.wr32 o v) :: rest) →
    o % 4 = 0 → o ≤ 0xFC → o ≠ 0x04 →
    ∃ t u, step s = .next t ∧ step t = .next u ∧ u.regs = t.regs ∧ t.regs.status = s.regs.status ∧
      t.regs.pend = s.regs.pend ∧ t.regs.outs = s.regs.outs ∧ t.regs.cmdr = s.regs.cmdr ∧
      (∀ p : Fin 4, t.regs.k.extractLsb' (32 * p.val) 32 =
        if o = 0x10 + 4 * p.val then v else s.regs.k.extractLsb' (32 * p.val) 32) ∧
      (∀ j p : Fin 4, (laneAt t.regs.ins j).extractLsb' (32 * p.val) 32 =
        if o = 0x20 + 16 * j.val + 4 * p.val then v else (laneAt s.regs.ins j).extractLsb' (32 * p.val) 32)) ∧
  (∀ (s : State) (rest : List Input) (w : Word), AtPort s (.wr32 0x04 w) (.access (.wr32 0x04 w) :: rest) →
    legal w = true → s.regs.status.busy = false →
    ∃ t u, step s = .next t ∧ step t = .next u ∧ t.regs.status.err = false ∧ t.regs.status.busy = true ∧
      u.regs.status.err = true ∧ u.regs.status.ecode = 2 ∧
      { u.regs with status := t.regs.status } = t.regs)

/-- A step is refused exactly when its input is an access of a width other than 32 bits or at an offset that is no
multiple of 4 (R53, R210), made during reset (R231), or outside the window; it then leads to no state.
That an access outside the window, which R50 to R52 leave to the platform, is refused is the model's choice
(assumptions 2 and 13).
No step faults, because the block has no faults (R200; assumption 12), and none is left without a meaning. -/
def Obligations.StepRefusesExactlyTheUndefinedAccesses : Prop :=
  ∀ s : State,
    ((∃ r, step s = .refused r) ↔ ∃ a rest, s.inputs = .access a :: rest ∧
      (s.inReset = true ∨ a.bytes ≠ 4 ∨ a.offset % 4 ≠ 0 ∨ 0xFC < a.offset)) ∧
    (∀ f, step s ≠ .fault f) ∧ (∀ m, step s ≠ .refused (.notModelled m))

/-- R54: lane byte `j` is `lane[8j+7:8j]`, `load` and `store` are inverse to each other, and lane byte `r + 4c` is the
AES state byte in row `r` and column `c`. -/
def Obligations.LaneLoadAndStoreAreInverse : Prop :=
  (∀ (v : Lane) (j : Nat), j < 16 → (storeLane v).getD j 0 = v.extractLsb' (8 * j) 8) ∧
  (∀ v : Lane, loadLane (fun j => (storeLane v).getD j 0) = v) ∧
  (∀ b : Nat → Byte, storeLane (loadLane b) = (List.range 16).map b) ∧
  (∀ (v : Lane) (r c : Nat), r < 4 → c < 4 → stateByte v r c = (storeLane v).getD (r + 4 * c) 0)

/-- R55: the register word at `L + 4q` is the word of the lane at position `q`, and its byte `j` is lane byte `4q +
j`, so four writes of a little-endian buffer to the words of `K` or of `IN[i]` leave the lane `load(buffer)` there. -/
def Obligations.RegisterWordsAreLittleEndian : Prop :=
  (∀ (v : Lane) (q : Fin 4) (j : Nat), j < 4 → (laneWord v q).extractLsb' (8 * j) 8 = laneByte v (4 * q.val + j)) ∧
  (∀ (v : Lane) (q : Fin 4), laneWord v q = v.extractLsb' (32 * q.val) 32) ∧
  (∀ (r : Regs) (draw : Word) (q : Fin 4), readSlot (slotAt (0x10 + 4 * q.val)) draw r = laneWord r.k q) ∧
  (∀ (r : Regs) (draw : Word) (i q : Fin 4),
    readSlot (slotAt (0x20 + 16 * i.val + 4 * q.val)) draw r = laneWord (laneAt r.ins i) q) ∧
  (∀ (r : Regs) (draw : Word) (i q : Fin 4), r.status.busy = false →
    readSlot (slotAt (0x60 + 16 * i.val + 4 * q.val)) draw r = laneWord (laneAt r.outs i) q) ∧
  (∀ (s : State) (b : Nat → Byte) (rest : List Input), s.inReset = false →
    s.inputs = .access (.wr32 0x10 (wordOfBytes (b 0) (b 1) (b 2) (b 3))) ::
      .access (.wr32 0x14 (wordOfBytes (b 4) (b 5) (b 6) (b 7))) ::
      .access (.wr32 0x18 (wordOfBytes (b 8) (b 9) (b 10) (b 11))) ::
      .access (.wr32 0x1C (wordOfBytes (b 12) (b 13) (b 14) (b 15))) :: rest →
    runSteps 4 s = .next { s with inputs := rest, regs := { s.regs with k := loadLane b } }) ∧
  (∀ (s : State) (b : Nat → Byte) (rest : List Input) (i : Fin 4), s.inReset = false →
    s.inputs = .access (.wr32 (0x20 + 16 * i.val) (wordOfBytes (b 0) (b 1) (b 2) (b 3))) ::
      .access (.wr32 (0x24 + 16 * i.val) (wordOfBytes (b 4) (b 5) (b 6) (b 7))) ::
      .access (.wr32 (0x28 + 16 * i.val) (wordOfBytes (b 8) (b 9) (b 10) (b 11))) ::
      .access (.wr32 (0x2C + 16 * i.val) (wordOfBytes (b 12) (b 13) (b 14) (b 15))) :: rest →
    runSteps 4 s =
      .next { s with inputs := rest, regs := { s.regs with ins := setLane s.regs.ins i (loadLane b) } })

/-- R51: the window map, offset by offset. -/
def Obligations.WindowMapByOffset : Prop :=
  slotAt 0x00 = .id ∧ slotAt 0x04 = .cmd ∧ slotAt 0x08 = .status ∧ slotAt 0x0C = .reserved ∧
  (∀ q : Fin 4, slotAt (0x10 + 4 * q.val) = .k q) ∧
  (∀ i q : Fin 4, slotAt (0x20 + 16 * i.val + 4 * q.val) = .input i q) ∧
  (∀ i q : Fin 4, slotAt (0x60 + 16 * i.val + 4 * q.val) = .output i q) ∧
  (∀ o : Nat, 0xA0 ≤ o → o ≤ 0xFF → slotAt o = .reserved)

/-- The window lies at `ARE_BASE`, a multiple of 256 (R50): an access at `ARE_BASE + o` is the access at offset `o`.
R50 and R51 give an address outside the window to the platform; that the model refuses it as `outsideWindow` is the
model's choice (assumption 2). -/
def Obligations.WindowLiesAtTheBaseAddress : Prop :=
  Config.areBase % 256 = 0 ∧
  (∀ (o bytes : Nat) (w : Option Word) (s : State), o < 0x100 →
    busAccess (Config.areBase + o) bytes w s = performAccess { offset := o, bytes := bytes, write := w } s) ∧
  (∀ (addr bytes : Nat) (w : Option Word) (s : State), addr < Config.areBase ∨ Config.areBase + 0x100 ≤ addr →
    busAccess addr bytes w s = .refused .outsideWindow)

/-- R100: `SubBytes` replaces every lane byte by its S-box entry, and the entry of `a` is the affine image of the
inverse of `a` in GF(2^8) modulo `0x11B`, with 0 its own inverse. -/
def Obligations.SBoxIsTheAffineImageOfTheInverse : Prop :=
  (∀ (x : Lane) (j : Nat), j < 16 → laneByte (subBytes x) j = sbox (laneByte x j)) ∧
  (∀ a : Byte, ∃ b : Byte, (if a = 0 then b = 0 else gfMul a b = 1) ∧
    sbox a = b ^^^ b.rotateLeft 1 ^^^ b.rotateLeft 2 ^^^ b.rotateLeft 3 ^^^ b.rotateLeft 4 ^^^ 0x63#8)

/-- R102: `ShiftRows` takes output byte `r + 4c` from input byte `r + 4((c + r) mod 4)`, which is the byte order the
rule writes out. -/
def Obligations.ShiftRowsRotatesEachRow : Prop :=
  (∀ (x : Lane) (r c : Nat), r < 4 → c < 4 →
    laneByte (shiftRows x) (r + 4 * c) = laneByte x (r + 4 * ((c + r) % 4))) ∧
  (∀ x : Lane, storeLane (shiftRows x) =
    ([0, 5, 10, 15, 4, 9, 14, 3, 8, 13, 2, 7, 12, 1, 6, 11] : List Nat).map (laneByte x))

/-- R103: `MixColumns` maps each column by the matrix of the rule, with `2•a = (a << 1) ^ (a[7] ? 0x11B : 0)`
truncated to 8 bits and `3•a = 2•a ^ a`. -/
def Obligations.MixColumnsMapsEachColumn : Prop :=
  (∀ (x : Lane) (c : Nat), c < 4 →
    laneByte (mixColumns x) (4 * c) = gfDouble (laneByte x (4 * c)) ^^^ gfTriple (laneByte x (4 * c + 1)) ^^^
      laneByte x (4 * c + 2) ^^^ laneByte x (4 * c + 3) ∧
    laneByte (mixColumns x) (4 * c + 1) = laneByte x (4 * c) ^^^ gfDouble (laneByte x (4 * c + 1)) ^^^
      gfTriple (laneByte x (4 * c + 2)) ^^^ laneByte x (4 * c + 3) ∧
    laneByte (mixColumns x) (4 * c + 2) = laneByte x (4 * c) ^^^ laneByte x (4 * c + 1) ^^^
      gfDouble (laneByte x (4 * c + 2)) ^^^ gfTriple (laneByte x (4 * c + 3)) ∧
    laneByte (mixColumns x) (4 * c + 3) = gfTriple (laneByte x (4 * c)) ^^^ laneByte x (4 * c + 1) ^^^
      laneByte x (4 * c + 2) ^^^ gfDouble (laneByte x (4 * c + 3))) ∧
  (∀ a : Byte, gfDouble a = (a <<< 1) ^^^ (if a.getLsbD 7 then 0x1B#8 else 0#8)) ∧
  (∀ a : Byte, gfTriple a = gfDouble a ^^^ a)

/-- The round is the four steps in order and the last round leaves MixColumns out; the operand enters by XOR only, so
two rounds of one lane differ by the XOR of their operands (R104 to R106). -/
def Obligations.RoundOperandEntersByXor : Prop :=
  (∀ x k : Lane, aesRound x k = mixColumns (shiftRows (subBytes x)) ^^^ k) ∧
  (∀ x k : Lane, aesRoundLast x k = shiftRows (subBytes x) ^^^ k) ∧
  (∀ x k k' : Lane, aesRound x k ^^^ aesRound x k' = k ^^^ k') ∧
  (∀ x k : Lane, aesRound x k = aesRound x 0 ^^^ k)

/-- Every intermediate value of FIPS-197 Appendix B round 1, as 95_test_vectors.md section 2 gives it. -/
def Obligations.FipsRoundOneValues : Prop :=
  subBytes 0x0848f8e92a8dc69a2be2f4a0bee33d19#128 = 0x3052411ee55db4b8f198bfe0ae1127d4#128 ∧
  shiftRows 0x3052411ee55db4b8f198bfe0ae1127d4#128 = 0xe598271ef11141b8ae52b4e0305dbfd4#128 ∧
  mixColumns 0xe598271ef11141b8ae52b4e0305dbfd4#128 = 0x4c2606287ad3f8489a19cbe0e5816604#128 ∧
  aesRound 0x0848f8e92a8dc69a2be2f4a0bee33d19#128 0x05766c2a3939a323b12c548817fefaa0#128 =
    0x49506a0243ea5b6b2b359f68f27f9ca4#128

/-- R122: under every configuration, `P256` runs the rounds `0 .. ROUNDS256 - 1` in index order, with constant
`RC256[i]` in round `i`. -/
def Obligations.Areion256RunsItsRoundsInOrder : Prop :=
  ∀ (c : RoundParams) (x : State256), ∃ y : Nat → State256,
    y 0 = x ∧ (∀ i : Fin (c.more256 + 1), y (i.val + 1) = c.round256 i (c.rc256 i) (y i.val)) ∧
    p256 c x = y c.rounds256

/-- R123: under every configuration, `P512` runs the rounds `0 .. ROUNDS512 - 1` in index order, with constant
`RC512[i]` in round `i`. -/
def Obligations.Areion512RunsItsRoundsInOrder : Prop :=
  ∀ (c : RoundParams) (x : Lanes), ∃ y : Nat → Lanes,
    y 0 = x ∧ (∀ i : Fin (c.more512 + 1), y (i.val + 1) = c.round512 i (c.rc512 i) (y i.val)) ∧
    p512 c x = y c.rounds512

/-- R141: the feed-forward mask lane by lane: nothing, the chaining half, or the message half; the code `11` is never
reached, because every word that holds it is illegal. -/
def Obligations.FeedForwardMaskByHalf : Prop :=
  (∀ (w : Width) (x : Lanes) (i : Fin 4), i.val < w.lanes →
    ffMask w .off x i = 0 ∧
    ffMask w .chaining x i = (if i.val < w.lanes / 2 then laneAt x i else 0) ∧
    ffMask w .message x i = (if w.lanes / 2 ≤ i.val then laneAt x i else 0)) ∧
  (∀ w : Word, w.extractLsb' 5 2 = 0b11#2 → legal w = false)

/-- The laws R149 derives from R141 and R142: under every configuration and for every input, (a) `DM ^ PERM = (h, 0)`
and `MMO ^ PERM = (0, m)`, (b) `DM ^ MMO = X`, and (c) a feed-forward of a zero half changes nothing. -/
def Obligations.FeedForwardLaws : Prop :=
  ∀ (c : RoundParams) (x : Lanes),
    ((compress256 c .chaining x).x0 ^^^ (compress256 c .off x).x0 = x.x0 ∧
      (compress256 c .chaining x).x1 ^^^ (compress256 c .off x).x1 = 0 ∧
      (compress256 c .message x).x0 ^^^ (compress256 c .off x).x0 = 0 ∧
      (compress256 c .message x).x1 ^^^ (compress256 c .off x).x1 = x.x1 ∧
      (compress256 c .chaining x).x0 ^^^ (compress256 c .message x).x0 = x.x0 ∧
      (compress256 c .chaining x).x1 ^^^ (compress256 c .message x).x1 = x.x1 ∧
      (x.x0 = 0 → compress256 c .chaining x = compress256 c .off x) ∧
      (x.x1 = 0 → compress256 c .message x = compress256 c .off x)) ∧
    (∀ i : Fin 4,
      laneAt (compress512 c .chaining x) i ^^^ laneAt (compress512 c .off x) i =
        (if i.val < 2 then laneAt x i else 0) ∧
      laneAt (compress512 c .message x) i ^^^ laneAt (compress512 c .off x) i =
        (if i.val < 2 then 0 else laneAt x i) ∧
      laneAt (compress512 c .chaining x) i ^^^ laneAt (compress512 c .message x) i = laneAt x i) ∧
    (x.x0 = 0 → x.x1 = 0 → compress512 c .chaining x = compress512 c .off x) ∧
    (x.x2 = 0 → x.x3 = 0 → compress512 c .message x = compress512 c .off x)

/-- Progress (R206): a command in flight completes after finitely many inputs under every schedule that neither
asserts reset nor makes an undefined access, at the latest one step after the last input, with the result of what was
latched.
That the inputs are a list and the engine moves after the last one is the model's form of the schedule (assumption 5).
-/
def Obligations.AcceptedCommandCompletes : Prop :=
  ∀ (s : State) (p : Pending), s.inReset = false → s.regs.status.busy = true → s.regs.pend = some p →
    (∀ i ∈ s.inputs, i.keepsRunning = true) →
    ∃ n t, n ≤ s.inputs.length + 1 ∧ runSteps n s = .next t ∧ t.regs.pend = none ∧
      t.regs.status.busy = false ∧ t.regs.status.done = true ∧ t.regs.cmdr = s.regs.cmdr ∧
      t.regs.outs = resultLanes p s.regs.outs

/-- A command in flight is undisturbed by whatever the host does (R27, R206, R237): after any number of defined
accesses, writes to `IN`, `K` and `CMD` among them, the same record is pending, `OUT` and `CMDR` are unchanged, and
the engine's turn gives the result of the operands latched at acceptance. -/
def Obligations.AccessesDoNotDisturbTheCommandInFlight : Prop :=
  ∀ (accesses : List Access) (s : State) (p : Pending) (rest : List Input), s.inReset = false →
    s.regs.status.busy = true → s.regs.pend = some p → (∀ a ∈ accesses, a.wellFormed = true) →
    s.inputs = accesses.map Input.access ++ rest →
    ∃ t, runSteps accesses.length s = .next t ∧ t.inputs = rest ∧ t.inReset = false ∧
      t.regs.pend = some p ∧ t.regs.status.busy = true ∧ t.regs.cmdr = s.regs.cmdr ∧ t.regs.outs = s.regs.outs ∧
      (engineTurn t.regs).outs = resultLanes p s.regs.outs

/-- The invariant of the machine holds after reset (R31). -/
def Obligations.InvariantHoldsAfterReset : Prop := State.reset.Inv

/-- Every step keeps the invariant (R24, R25, R27, R202, R230): `PEND` and `BUSY` agree, `BUSY` and `DONE` exclude
each other, `ECODE` matches `ERR` and the phase, `CMDR` is zero or the legal word in flight or completed, and the
registers hold their reset values while reset is asserted. -/
def Obligations.EveryStepKeepsTheInvariant : Prop :=
  ∀ s t : State, s.Inv → step s = .next t → t.Inv

/-- `K` reaches no permutation or compression result and nothing the host reads but `K` itself (R21): from two states
that agree on everything but `K` (and a permutation's copy of it), a step whose input is neither a read of `K` nor an
`AESR` command leads to two states that agree again.
A draw is left out too: R56 lets a read of `OUT` while a command is in flight return anything. -/
def Obligations.KReachesOnlyTheAesRound : Prop :=
  ∀ s t s' : State, SameButK s t → (∀ i rest, s.inputs = i :: rest → i.showsK s.regs = false) → step s = .next s' →
    ∃ t', step t = .next t' ∧ SameButK s' t'

/-- R31: the value of every piece of state after reset, `ID` among them. -/
def Obligations.ResetValues : Prop :=
  State.reset.regs =
    { cmdr := 0x00000000#32
      status := { busy := false, done := false, err := false, ecode := 0 }
      k := 0
      ins := { x0 := 0, x1 := 0, x2 := 0, x3 := 0 }
      outs := { x0 := 0, x1 := 0, x2 := 0, x3 := 0 }
      pend := none } ∧
  State.reset.regs.status.word = 0x00000000#32 ∧
  ∀ draw : Word, readSlot (slotAt 0x00) draw State.reset.regs = 0x41524501#32

/-- R230: asserting reset gives every register its reset value from any state, a command in flight among them, whose
result is never written and for which `DONE` is not set.
It is the only way to cancel a command: after any other step the command is still pending or has completed with its
result. -/
def Obligations.ResetAbandonsTheCommandInFlight : Prop :=
  (∀ (s : State) (rest : List Input), s.inputs = .resetAsserted :: rest →
    step s = .next { s with
      inputs := rest
      inReset := true
      regs :=
        { cmdr := 0x00000000#32
          status := { busy := false, done := false, err := false, ecode := 0 }
          k := 0
          ins := { x0 := 0, x1 := 0, x2 := 0, x3 := 0 }
          outs := { x0 := 0, x1 := 0, x2 := 0, x3 := 0 }
          pend := none } }) ∧
  (∀ (s t : State) (p : Pending), s.regs.status.busy = true → s.regs.pend = some p → step s = .next t →
    (∀ rest, s.inputs ≠ .resetAsserted :: rest) →
    t.regs.pend = some p ∨
      (t.regs.pend = none ∧ t.regs.status.done = true ∧ t.regs.outs = resultLanes p s.regs.outs))

/-- While reset is asserted every access is refused, and the first access after its release sees the reset values (R231).
R231 speaks of accesses to the window: that one outside it is refused as well (assumption 2), and that the reason is
`accessDuringReset` before its width or offset is looked at (assumption 14), are the model's choices. -/
def Obligations.AccessesDuringResetAreRefused : Prop :=
  (∀ (s : State) (a : Access) (rest : List Input), s.inReset = true → s.inputs = .access a :: rest →
    step s = .refused .accessDuringReset) ∧
  (∀ (s : State) (rest : List Input), s.inputs = .resetAsserted :: .resetReleased :: rest →
    runSteps 2 s =
      .next { s with inputs := rest, inReset := false, regs := State.reset.regs })

/-- R235: whether a second command written without looking at `BUSY` is accepted depends on the schedule: accepted
where the engine's turn falls before it, discarded as `CMD_BUSY` where it falls after. -/
def Obligations.ScheduleDecidesTheSecondCommand : Prop :=
  ∀ (s : State) (i j : Instr) (rest : List Input), s.inReset = false → s.regs.status.busy = false →
    (s.inputs = .access (.wr32 0x04 (encode i)) :: .engine :: .access (.wr32 0x04 (encode j)) :: rest →
      ∃ t, runSteps 3 s = .next t ∧ t.regs.cmdr = encode j ∧ t.regs.status.word = 0x00000001#32) ∧
    (s.inputs = .access (.wr32 0x04 (encode i)) :: .access (.wr32 0x04 (encode j)) :: .engine :: rest →
      ∃ t, runSteps 3 s = .next t ∧ t.regs.cmdr = encode i ∧ t.regs.status.word = 0x00000026#32)

/-- What R236 derives from R201 and R205: after a write discarded as `CMD_BUSY`, the later `DONE = 1` belongs to the
earlier command, whose word `CMDR` holds, and `ERR` tells so; after an illegal word written while idle, polling
`STATUS` never sees `DONE = 1`. -/
def Obligations.DoneBelongsToTheLastAcceptedCommand : Prop :=
  (∀ (s : State) (p : Pending) (w : Word) (rest : List Input), AtPort s (.wr32 0x04 w) (.engine :: rest) →
    s.regs.status.busy = true → s.regs.pend = some p →
    ∃ t, runSteps 2 s = .next t ∧ t.regs.status.done = true ∧ t.regs.status.err = true ∧
      t.regs.cmdr = s.regs.cmdr ∧ t.regs.outs = resultLanes p s.regs.outs) ∧
  (∀ (polls : List Input) (s : State) (w : Word), AtPort s (.wr32 0x04 w) polls → legal w = false →
    s.regs.status.busy = false → s.regs.pend = none → (∀ i ∈ polls, i.pollsStatus = true) →
    ∃ t, runSteps (polls.length + 1) s = .next t ∧ t.regs.status.done = false ∧
      t.regs.status.err = true)

/-- A lane is not written atomically (R60): a command accepted between the writes of two words of `IN[0]` latches a
lane made of the new first word and the old other words, while `IN[0]` goes on to take the second. -/
def Obligations.PartialLaneWriteLatchesAMixedLane : Prop :=
  ∀ (s : State) (v v' : Word) (i : Instr) (rest : List Input), s.inReset = false → s.regs.status.busy = false →
    s.inputs = .access (.wr32 0x20 v) :: .access (.wr32 0x04 (encode i)) :: .access (.wr32 0x24 v') :: rest →
    ∃ t p, runSteps 3 s = .next t ∧ t.regs.pend = some p ∧
      laneWord p.x.x0 0 = v ∧ laneWord p.x.x0 1 = laneWord s.regs.ins.x0 1 ∧
      laneWord p.x.x0 2 = laneWord s.regs.ins.x0 2 ∧ laneWord p.x.x0 3 = laneWord s.regs.ins.x0 3 ∧
      laneWord t.regs.ins.x0 0 = v ∧ laneWord t.regs.ins.x0 1 = v'

/-- `wrlane` followed by `rdlane` of the same register, `K` or `IN[i]`, returns the same lane, whatever it held before
(R78). -/
def Obligations.WrlaneThenRdlaneReturnsTheLane : Prop :=
  ∀ (r : LaneReg) (b : Nat → Byte) (name : Nat) (tail : List Line) (vars : List (Var × Word)) (s : State),
    (∀ i, r ≠ .output i) → s.inReset = false →
    ∃ h t, runScript (List.replicate 8 .host)
        { lines := wrlaneBytes r b ++ rdlane r name ++ tail, pc := 0, vars := vars } s = .running h t ∧
      h.pc = 8 ∧ laneVar name h.vars = some (loadLane b) ∧ t.regs.status = s.regs.status ∧
      t.regs.outs = s.regs.outs ∧ t.regs.pend = s.regs.pend

/-- `cmd <MNEMONIC>` writes the command's word to `CMD`, and the command runs (R72, R78). -/
def Obligations.CmdLineRunsTheCommand : Prop :=
  ∀ (i : Instr) (h : Script) (s : State) (l : Line), s.inReset = false → cmdLine i = [l] → h.lines[h.pc]? = some l →
    ∃ t, exec i s = .next t ∧ hostTurn h s = .running h.advance t

/-- One round of `waitdone` or `waitidle` at the start of a script (R78): the host goes on past it exactly when the
`STATUS` it has read has `DONE = 1` (`BUSY = 0` for `waitidle`), and else is back at its label.
Where the lines after the loop repeat its label, which the fresh label of R78 rules out, that the branch goes to the
first one is the model's choice (assumption 9). -/
def Obligations.WaitLoopsPollStatus : Prop :=
  ∀ (x l : Nat) (tail : List Line) (vars : List (Var × Word)) (s : State), s.inReset = false →
    (∃ h t, runScript (List.replicate 3 .host) { lines := waitdone x l ++ tail, pc := 0, vars := vars } s =
        .running h t ∧
      t.regs = s.regs ∧ lookupVar ⟨x, 0⟩ h.vars = some s.regs.status.word ∧
      h.pc = if s.regs.status.done = true then 3 else 0) ∧
    (∃ h t, runScript (List.replicate 3 .host) { lines := waitidle x l ++ tail, pc := 0, vars := vars } s =
        .running h t ∧
      t.regs = s.regs ∧ lookupVar ⟨x, 0⟩ h.vars = some s.regs.status.word ∧
      h.pc = if s.regs.status.busy = false then 3 else 0)
end

