-- ==== Sys2Proof/Laws/State.lean ====
section
/-! SUPPORT. One lemma per field per update: the `STATUS` updates, the named register operations, the two state
operations, and the two lane-file accessors. -/

namespace Sys2Proof.Machine

open Sys2Proof

@[simp] theorem Status.accepted_busy (s : Status) : s.accepted.busy = true := rfl
@[simp] theorem Status.accepted_done (s : Status) : s.accepted.done = false := rfl
@[simp] theorem Status.accepted_err (s : Status) : s.accepted.err = false := rfl
@[simp] theorem Status.accepted_ecode (s : Status) : s.accepted.ecode = 0 := rfl

@[simp] theorem Status.completed_busy (s : Status) : s.completed.busy = false := rfl
@[simp] theorem Status.completed_done (s : Status) : s.completed.done = true := rfl
@[simp] theorem Status.completed_err (s : Status) : s.completed.err = s.err := rfl
@[simp] theorem Status.completed_ecode (s : Status) : s.completed.ecode = s.ecode := rfl

@[simp] theorem Status.rejected_busy (e : CmdError) (s : Status) : (s.rejected e).busy = s.busy := by cases e <;> rfl
@[simp] theorem Status.rejected_err (e : CmdError) (s : Status) : (s.rejected e).err = true := by cases e <;> rfl
@[simp] theorem Status.rejected_ecode (e : CmdError) (s : Status) : (s.rejected e).ecode = e.code := by
  cases e <;> rfl
@[simp] theorem Status.rejected_busy_done (s : Status) : (s.rejected .cmdBusy).done = s.done := rfl
@[simp] theorem Status.rejected_illegal_done (s : Status) : (s.rejected .illegalCmd).done = false := rfl

@[simp] theorem raiseCmdError_cmdr (e : CmdError) (r : Regs) : (raiseCmdError e r).cmdr = r.cmdr := rfl
@[simp] theorem raiseCmdError_status (e : CmdError) (r : Regs) : (raiseCmdError e r).status = r.status.rejected e := rfl
@[simp] theorem raiseCmdError_k (e : CmdError) (r : Regs) : (raiseCmdError e r).k = r.k := rfl
@[simp] theorem raiseCmdError_ins (e : CmdError) (r : Regs) : (raiseCmdError e r).ins = r.ins := rfl
@[simp] theorem raiseCmdError_outs (e : CmdError) (r : Regs) : (raiseCmdError e r).outs = r.outs := rfl
@[simp] theorem raiseCmdError_pend (e : CmdError) (r : Regs) : (raiseCmdError e r).pend = r.pend := rfl

@[simp] theorem latchCommand_cmdr (i : Instr) (r : Regs) : (latchCommand i r).cmdr = encode i := rfl
@[simp] theorem latchCommand_status (i : Instr) (r : Regs) : (latchCommand i r).status = r.status.accepted := rfl
@[simp] theorem latchCommand_k (i : Instr) (r : Regs) : (latchCommand i r).k = r.k := rfl
@[simp] theorem latchCommand_ins (i : Instr) (r : Regs) : (latchCommand i r).ins = r.ins := rfl
@[simp] theorem latchCommand_outs (i : Instr) (r : Regs) : (latchCommand i r).outs = r.outs := rfl
@[simp] theorem latchCommand_pend (i : Instr) (r : Regs) : (latchCommand i r).pend = some (pendingOf i r) := rfl

@[simp] theorem completePending_cmdr (p : Pending) (r : Regs) : (completePending p r).cmdr = r.cmdr := rfl
@[simp] theorem completePending_status (p : Pending) (r : Regs) :
    (completePending p r).status = r.status.completed := rfl
@[simp] theorem completePending_k (p : Pending) (r : Regs) : (completePending p r).k = r.k := rfl
@[simp] theorem completePending_ins (p : Pending) (r : Regs) : (completePending p r).ins = r.ins := rfl
@[simp] theorem completePending_outs (p : Pending) (r : Regs) :
    (completePending p r).outs = resultLanes p r.outs := rfl
@[simp] theorem completePending_pend (p : Pending) (r : Regs) : (completePending p r).pend = none := rfl

@[simp] theorem engineTurn_cmdr (r : Regs) : (engineTurn r).cmdr = r.cmdr := by unfold engineTurn; split <;> rfl
@[simp] theorem engineTurn_k (r : Regs) : (engineTurn r).k = r.k := by unfold engineTurn; split <;> rfl
@[simp] theorem engineTurn_ins (r : Regs) : (engineTurn r).ins = r.ins := by unfold engineTurn; split <;> rfl

@[simp] theorem writeSlot_cmdr (sl : Slot) (v : Word) (r : Regs) : (writeSlot sl v r).cmdr = r.cmdr := by
  cases sl <;> rfl
@[simp] theorem writeSlot_status (sl : Slot) (v : Word) (r : Regs) : (writeSlot sl v r).status = r.status := by
  cases sl <;> rfl
@[simp] theorem writeSlot_outs (sl : Slot) (v : Word) (r : Regs) : (writeSlot sl v r).outs = r.outs := by
  cases sl <;> rfl
@[simp] theorem writeSlot_pend (sl : Slot) (v : Word) (r : Regs) : (writeSlot sl v r).pend = r.pend := by
  cases sl <;> rfl

@[simp] theorem hostRead_regs (sl : Slot) (s : State) : (hostRead sl s).regs = s.regs := rfl
@[simp] theorem hostRead_inReset (sl : Slot) (s : State) : (hostRead sl s).inReset = s.inReset := rfl
@[simp] theorem hostRead_inputs (sl : Slot) (s : State) : (hostRead sl s).inputs = s.inputs := rfl
@[simp] theorem hostRead_replies (sl : Slot) (s : State) :
    (hostRead sl s).replies = readSlot sl (Config.freeWord s.draws) s.regs :: s.replies := rfl
@[simp] theorem hostRead_draws (sl : Slot) (s : State) :
    (hostRead sl s).draws = if readIsDraw sl s.regs then s.draws + 1 else s.draws := rfl

@[simp] theorem withCommandWord_regs (w : Word) (s : State) : (withCommandWord w s).regs = s.regs := rfl
@[simp] theorem withCommandWord_inReset (w : Word) (s : State) : (withCommandWord w s).inReset = false := rfl
@[simp] theorem withCommandWord_inputs (w : Word) (s : State) :
    (withCommandWord w s).inputs = .access (commandAccess w) :: s.inputs := rfl
@[simp] theorem withCommandWord_replies (w : Word) (s : State) : (withCommandWord w s).replies = s.replies := rfl
@[simp] theorem withCommandWord_draws (w : Word) (s : State) : (withCommandWord w s).draws = s.draws := rfl

@[simp] theorem laneAt_setLane_same (r : Lanes) (i : Fin 4) (v : Lane) : laneAt (setLane r i v) i = v := by
  fin_cases i <;> rfl

theorem laneAt_setLane_other (r : Lanes) {i j : Fin 4} (v : Lane) (h : j ≠ i) :
    laneAt (setLane r i v) j = laneAt r j := by
  fin_cases i <;> fin_cases j <;> first | rfl | exact absurd rfl h

end Sys2Proof.Machine
end

