-- ==== Sys2Proof/Laws/Lanes.lean ====
section
/-! SUPPORT. The words of a lane: what `laneOfWords` and `setLaneWord` hold at each word position (R55, R57, R78). -/

namespace Sys2Proof.Machine

open Sys2Proof

/-- Bit `j` of a lane made of four words is a bit of the word it lies in (R55). -/
theorem getLsbD_laneOfWords (t0 t1 t2 t3 : Word) (j : Nat) :
    (laneOfWords t0 t1 t2 t3).getLsbD j =
      if j < 32 then t0.getLsbD j
      else if j < 64 then t1.getLsbD (j - 32)
      else if j < 96 then t2.getLsbD (j - 64)
      else t3.getLsbD (j - 96) := by
  simp only [laneOfWords, BitVec.getLsbD_cast, BitVec.getLsbD_append, Nat.sub_sub]
  repeat' split
  all_goals first | rfl | omega

@[simp] theorem laneWord_laneOfWords_0 (t0 t1 t2 t3 : Word) : laneWord (laneOfWords t0 t1 t2 t3) 0 = t0 := by
  refine BitVec.eq_of_getLsbD_eq fun j hj => ?_
  simp only [laneWord, BitVec.getLsbD_extractLsb', getLsbD_laneOfWords]
  simp [hj]

@[simp] theorem laneWord_laneOfWords_1 (t0 t1 t2 t3 : Word) : laneWord (laneOfWords t0 t1 t2 t3) 1 = t1 := by
  refine BitVec.eq_of_getLsbD_eq fun j hj => ?_
  simp only [laneWord, BitVec.getLsbD_extractLsb', getLsbD_laneOfWords]
  simp [hj, show 32 + j < 64 by omega]

@[simp] theorem laneWord_laneOfWords_2 (t0 t1 t2 t3 : Word) : laneWord (laneOfWords t0 t1 t2 t3) 2 = t2 := by
  refine BitVec.eq_of_getLsbD_eq fun j hj => ?_
  simp only [laneWord, BitVec.getLsbD_extractLsb', getLsbD_laneOfWords]
  simp [hj, show ¬64 + j < 32 by omega, show 64 + j < 96 by omega]

@[simp] theorem laneWord_laneOfWords_3 (t0 t1 t2 t3 : Word) : laneWord (laneOfWords t0 t1 t2 t3) 3 = t3 := by
  refine BitVec.eq_of_getLsbD_eq fun j hj => ?_
  simp only [laneWord, BitVec.getLsbD_extractLsb', getLsbD_laneOfWords]
  simp [hj, show ¬96 + j < 32 by omega, show ¬96 + j < 64 by omega]

@[simp] theorem laneWord_setLaneWord_same (x : Lane) (q : Fin 4) (v : Word) :
    laneWord (setLaneWord x q v) q = v := by
  fin_cases q <;> simp [setLaneWord]

theorem laneWord_setLaneWord_other (x : Lane) {q p : Fin 4} (v : Word) (h : p ≠ q) :
    laneWord (setLaneWord x q v) p = laneWord x p := by
  fin_cases q <;> fin_cases p <;> first | exact absurd rfl h | simp [setLaneWord]

/-- A lane is the join of its four words. -/
theorem laneOfWords_laneWords (x : Lane) :
    laneOfWords (laneWord x 0) (laneWord x 1) (laneWord x 2) (laneWord x 3) = x := by
  ext j hj
  simp only [laneOfWords, laneWord, BitVec.getElem_cast, BitVec.getElem_append, BitVec.getElem_extractLsb']
  repeat' split
  all_goals rw [← BitVec.getLsbD_eq_getElem]; congr 1; simp; try omega

/-- The bytes of a little-endian word (R55). -/
theorem bytesOfWord_wordOfBytes (b0 b1 b2 b3 : Byte) : bytesOfWord (wordOfBytes b0 b1 b2 b3) = [b0, b1, b2, b3] := by
  simp only [bytesOfWord, List.cons.injEq, and_true]
  refine ⟨?_, ?_, ?_, ?_⟩ <;> refine BitVec.eq_of_getLsbD_eq fun j hj => ?_ <;>
    simp only [wordOfBytes, BitVec.getLsbD_cast, BitVec.getLsbD_append, BitVec.getLsbD_extractLsb'] <;>
    simp [hj, show ¬16 + j < 8 by omega, show ¬24 + j < 8 by omega, show ¬(16 + j - 8 < 8) by omega,
      show ¬(24 + j - 8 < 8) by omega, show ¬(24 + j - 8 - 8 < 8) by omega, show 16 + j - 8 - 8 = j by omega,
      show 24 + j - 8 - 8 - 8 = j by omega]

/-- Byte `j` of the word at position `q` is lane byte `4q + j` (R55). -/
theorem laneByte_eq_wordByte (v : Lane) (q : Fin 4) {j : Nat} (hj : j < 4) :
    laneByte v (4 * q.val + j) = (laneWord v q).extractLsb' (8 * j) 8 := by
  refine BitVec.eq_of_getLsbD_eq fun k hk => ?_
  simp [laneWord, laneByte, hk, show 8 * j + k < 32 by omega,
    show 32 * q.val + (8 * j + k) = 8 * (4 * q.val + j) + k by omega]

/-- Lane byte `j` of `load(b0..b15)` is `bj` (R54). -/
@[simp] theorem laneByte_loadLane (b : Nat → Byte) {j : Nat} (hj : j < 16) : laneByte (loadLane b) j = b j := by
  have hw : ∀ c : Nat → Byte, ∀ k < 4,
      (wordOfBytes (c 0) (c 1) (c 2) (c 3)).extractLsb' (8 * k) 8 = c k := by
    intro c k hk
    have h := bytesOfWord_wordOfBytes (c 0) (c 1) (c 2) (c 3)
    simp only [bytesOfWord, List.cons.injEq, and_true] at h
    obtain ⟨h0, h1, h2, h3⟩ := h
    interval_cases k <;> assumption
  obtain h | h | h | h : j < 4 ∨ (4 ≤ j ∧ j < 8) ∨ (8 ≤ j ∧ j < 12) ∨ 12 ≤ j := by omega
  · have h' := laneByte_eq_wordByte (loadLane b) 0 (j := j) h
    rw [show 4 * (0 : Fin 4).val + j = j by simp, loadLane, laneWord_laneOfWords_0, hw b j h] at h'
    exact h'
  · have h' := laneByte_eq_wordByte (loadLane b) 1 (j := j - 4) (by omega)
    rw [show 4 * (1 : Fin 4).val + (j - 4) = j by simp; omega, loadLane, laneWord_laneOfWords_1,
      hw (fun n => b (4 + n)) (j - 4) (by omega), show 4 + (j - 4) = j by omega] at h'
    exact h'
  · have h' := laneByte_eq_wordByte (loadLane b) 2 (j := j - 8) (by omega)
    rw [show 4 * (2 : Fin 4).val + (j - 8) = j by simp; omega, loadLane, laneWord_laneOfWords_2,
      hw (fun n => b (8 + n)) (j - 8) (by omega), show 8 + (j - 8) = j by omega] at h'
    exact h'
  · have h' := laneByte_eq_wordByte (loadLane b) 3 (j := j - 12) (by omega)
    rw [show 4 * (3 : Fin 4).val + (j - 12) = j by simp; omega, loadLane, laneWord_laneOfWords_3,
      hw (fun n => b (12 + n)) (j - 12) (by omega), show 12 + (j - 12) = j by omega] at h'
    exact h'

/-- Two lanes with the same bytes are the same lane (R54). -/
theorem lane_ext {x y : Lane} (h : ∀ j < 16, laneByte x j = laneByte y j) : x = y := by
  refine BitVec.eq_of_getLsbD_eq fun k hk => ?_
  have h' := congrArg (·.getLsbD (k % 8)) (h (k / 8) (by omega))
  simpa [laneByte, Nat.mod_lt, show 8 * (k / 8) + k % 8 = k by omega] using h'

end Sys2Proof.Machine
end

