-- ==== Sys2Proof/Laws/Ops.lean ====
section
/-! SUPPORT. One specification lemma per shared operation: everything it can answer, said once. -/

namespace Sys2Proof.Machine

open Sys2Proof

/-- Every arm of `exec` presents its command to the acceptance logic (R201). -/
theorem exec_eq_presentCommand (i : Instr) (s : State) : exec i s = presentCommand i s := by cases i <;> rfl

theorem presentCommand_idle (i : Instr) {s : State} (h : s.regs.status.busy = false) :
    presentCommand i s = .next { s with regs := latchCommand i s.regs } := by
  simp [presentCommand, h]

theorem presentCommand_busy (i : Instr) {s : State} (h : s.regs.status.busy = true) :
    presentCommand i s = .next { s with regs := raiseCmdError .cmdBusy s.regs } := by
  simp [presentCommand, h]

theorem presentIllegal_idle {s : State} (h : s.regs.status.busy = false) :
    presentIllegal s = .next { s with regs := raiseCmdError .illegalCmd s.regs } := by
  simp [presentIllegal, h]

theorem presentIllegal_busy {s : State} (h : s.regs.status.busy = true) :
    presentIllegal s = .next { s with regs := raiseCmdError .cmdBusy s.regs } := by
  simp [presentIllegal, h]

theorem commandWrite_busy (w : Word) {s : State} (h : s.regs.status.busy = true) :
    commandWrite w s = .next { s with regs := raiseCmdError .cmdBusy s.regs } := by
  unfold commandWrite
  split
  · rw [exec_eq_presentCommand, presentCommand_busy _ h]
  · exact presentIllegal_busy h

theorem commandWrite_command {w : Word} {i : Instr} (s : State) (h : decode w = .command i) :
    commandWrite w s = exec i s := by
  simp [commandWrite, h]

theorem commandWrite_illegal {w : Word} {why : Illegal} (s : State) (h : decode w = .illegal why) :
    commandWrite w s = presentIllegal s := by
  simp [commandWrite, h]

/-- What a host write of a command word can do: `CMD_BUSY`, `ILLEGAL_CMD`, or acceptance (R201). -/
theorem commandWrite_cases (w : Word) (s : State) :
    (s.regs.status.busy = true ∧ commandWrite w s = .next { s with regs := raiseCmdError .cmdBusy s.regs }) ∨
    (s.regs.status.busy = false ∧ (∃ why, decode w = .illegal why) ∧
      commandWrite w s = .next { s with regs := raiseCmdError .illegalCmd s.regs }) ∨
    (s.regs.status.busy = false ∧ ∃ i, decode w = .command i ∧
      commandWrite w s = .next { s with regs := latchCommand i s.regs }) := by
  by_cases hb : s.regs.status.busy = true
  · exact .inl ⟨hb, commandWrite_busy w hb⟩
  · have hb : s.regs.status.busy = false := by simpa using hb
    cases hd : decode w with
    | illegal why => exact .inr (.inl ⟨hb, ⟨why, rfl⟩, by rw [commandWrite_illegal s hd, presentIllegal_idle hb]⟩)
    | command i =>
      exact .inr (.inr ⟨hb, i, rfl, by
        rw [commandWrite_command s hd, exec_eq_presentCommand, presentCommand_idle i hb]⟩)

theorem engineTurn_none {r : Regs} (h : r.pend = none) : engineTurn r = r := by simp [engineTurn, h]

theorem engineTurn_some {r : Regs} {p : Pending} (h : r.pend = some p) : engineTurn r = completePending p r := by
  simp [engineTurn, h]

/-- After an engine's turn nothing is pending. -/
@[simp] theorem engineTurn_pend (r : Regs) : (engineTurn r).pend = none := by
  cases h : r.pend with
  | none => rw [engineTurn_none h, h]
  | some p => rw [engineTurn_some h, completePending_pend]

/-- What one host write can do: `CommandWrite`, or `writeSlot` (R57). -/
theorem hostWrite_cases (sl : Slot) (v : Word) (s : State) :
    (sl = .cmd ∧ hostWrite sl v s = commandWrite v s) ∨
    (sl ≠ .cmd ∧ hostWrite sl v s = .next { s with regs := writeSlot sl v s.regs }) := by
  cases sl <;> first | exact .inl ⟨rfl, rfl⟩ | exact .inr ⟨nofun, rfl⟩

/-- What an access that answers a next state has done (R53, R56, R57, R231). -/
theorem performAccess_next {a : Access} {s t : State} (h : performAccess a s = .next t) :
    s.inReset = false ∧ a.defect = none ∧
    ((a.write = none ∧ t = hostRead (slotAt a.offset) s) ∨
      ∃ v, a.write = some v ∧ hostWrite (slotAt a.offset) v s = .next t) := by
  unfold performAccess at h
  split at h
  · cases h
  · rename_i hr
    split at h
    · cases h
    · rename_i hd
      refine ⟨by simpa using hr, hd, ?_⟩
      split at h
      · rename_i hw
        exact .inl ⟨hw, by cases h; rfl⟩
      · rename_i v hw
        exact .inr ⟨v, hw, h⟩

theorem performAccess_read {a : Access} {s : State} (hr : s.inReset = false) (hd : a.defect = none)
    (hw : a.write = none) : performAccess a s = .next (hostRead (slotAt a.offset) s) := by
  simp [performAccess, hr, hd, hw]

theorem performAccess_write {a : Access} {s : State} {v : Word} (hr : s.inReset = false) (hd : a.defect = none)
    (hw : a.write = some v) : performAccess a s = hostWrite (slotAt a.offset) v s := by
  simp [performAccess, hr, hd, hw]

/-- What a step that answers a next state has done: the engine's turn, a read, a write of a register other than `CMD`,
a rejection, an acceptance, or a change of the reset input (R205, R207). -/
theorem step_cases {s t : State} (h : step s = .next t) :
    ∃ rest, (∀ i ∈ rest, i ∈ s.inputs) ∧
    (t = { s with inputs := rest, regs := engineTurn s.regs } ∨
     (s.inReset = false ∧ ∃ sl, t = hostRead sl { s with inputs := rest }) ∨
     (s.inReset = false ∧ ∃ sl v, sl ≠ .cmd ∧ t = { s with inputs := rest, regs := writeSlot sl v s.regs }) ∨
     (s.inReset = false ∧ s.regs.status.busy = true ∧
       t = { s with inputs := rest, regs := raiseCmdError .cmdBusy s.regs }) ∨
     (s.inReset = false ∧ s.regs.status.busy = false ∧
       t = { s with inputs := rest, regs := raiseCmdError .illegalCmd s.regs }) ∨
     (s.inReset = false ∧ s.regs.status.busy = false ∧ ∃ i,
       t = { s with inputs := rest, regs := latchCommand i s.regs }) ∨
     t = { s with inputs := rest, regs := Regs.reset, inReset := true } ∨
     t = { s with inputs := rest, inReset := false }) := by
  unfold step at h
  split at h
  · rename_i i rest hi
    refine ⟨rest, fun j hj => by rw [hi]; exact List.mem_cons_of_mem _ hj, ?_⟩
    cases i with
    | engine => cases h; exact .inl rfl
    | resetAsserted => cases h; exact .inr (.inr (.inr (.inr (.inr (.inr (.inl rfl))))))
    | resetReleased => cases h; exact .inr (.inr (.inr (.inr (.inr (.inr (.inr rfl))))))
    | access a =>
      obtain ⟨hr, -, ⟨-, rfl⟩ | ⟨v, -, hv⟩⟩ := performAccess_next h
      · exact .inr (.inl ⟨hr, _, rfl⟩)
      · obtain ⟨-, hc⟩ | ⟨hs, hc⟩ := hostWrite_cases (slotAt a.offset) v { s with inputs := rest }
        · rw [hc] at hv
          obtain ⟨hb, he⟩ | ⟨hb, -, he⟩ | ⟨hb, i, -, he⟩ := commandWrite_cases v { s with inputs := rest }
          · rw [he] at hv; cases hv
            exact .inr (.inr (.inr (.inl ⟨hr, hb, rfl⟩)))
          · rw [he] at hv; cases hv
            exact .inr (.inr (.inr (.inr (.inl ⟨hr, hb, rfl⟩))))
          · rw [he] at hv; cases hv
            exact .inr (.inr (.inr (.inr (.inr (.inl ⟨hr, hb, i, rfl⟩)))))
        · rw [hc] at hv; cases hv
          exact .inr (.inr (.inl ⟨hr, _, v, hs, rfl⟩))
  · rename_i hi
    cases h
    exact ⟨[], nofun, .inl (by rw [← hi])⟩

/-- A defined access has no defect (R52). -/
theorem defect_eq_none_iff (a : Access) :
    a.defect = none ↔ a.bytes = 4 ∧ a.offset % 4 = 0 ∧ a.offset ≤ 0xFC := by
  unfold Access.defect
  split_ifs <;> simp <;> omega

/-- The step of a defined write at the port (R57). -/
theorem step_write {s : State} {o : Nat} {v : Word} {rest : List Input} (h : AtPort s (.wr32 o v) rest)
    (h4 : o % 4 = 0) (hl : o ≤ 0xFC) : step s = hostWrite (slotAt o) v { s with inputs := rest } := by
  obtain ⟨hr, hi⟩ := h
  unfold step
  rw [hi]
  exact performAccess_write (s := { s with inputs := rest }) hr ((defect_eq_none_iff _).2 ⟨rfl, h4, hl⟩) rfl

/-- The step of a defined read at the port (R56). -/
theorem step_read {s : State} {o : Nat} {rest : List Input} (h : AtPort s (.rd32 o) rest) (h4 : o % 4 = 0)
    (hl : o ≤ 0xFC) : step s = .next (hostRead (slotAt o) { s with inputs := rest }) := by
  obtain ⟨hr, hi⟩ := h
  unfold step
  rw [hi]
  exact performAccess_read (s := { s with inputs := rest }) hr ((defect_eq_none_iff _).2 ⟨rfl, h4, hl⟩) rfl

/-- The step of a write to `CMD` (R201). -/
theorem step_commandWrite {s : State} {w : Word} {rest : List Input} (h : AtPort s (.wr32 0x04 w) rest) :
    step s = commandWrite w { s with inputs := rest } :=
  step_write h rfl (by decide)

/-- The step of the engine's turn (R205). -/
theorem step_engine {s : State} {rest : List Input} (h : s.inputs = .engine :: rest) :
    step s = .next { s with inputs := rest, regs := engineTurn s.regs } := by
  unfold step
  rw [h]
  rfl

@[simp] theorem runSteps_zero (s : State) : runSteps 0 s = .next s := rfl

theorem runSteps_succ {s t : State} (n : Nat) (h : step s = .next t) : runSteps (n + 1) s = runSteps n t := by
  simp [runSteps, h]

/-- `runSteps` is the host's run of the machine. -/
theorem runSteps_eq_coreRun (n : Nat) (s : State) : runSteps n s = Host.Core.run Sys2Proof.core n s := by
  induction n generalizing s with
  | zero => rfl
  | succ n ih =>
    cases h : step s with
    | next t =>
      rw [runSteps_succ n h, ih t]
      exact (by simp only [Host.Core.run]; rw [show Sys2Proof.core.step s = .next t from h] :
        Host.Core.run Sys2Proof.core n t = Host.Core.run Sys2Proof.core (n + 1) s)
    | fault r => cases r
    | refused r =>
      simp only [runSteps, h, Host.Core.run]
      rw [show Sys2Proof.core.step s = .refused r from h]
      rfl

/-- The first rounds compose: round `k` is applied to what the rounds before it give (R122, R123). -/
@[simp] theorem runRounds_succ {S : Type} {n : Nat} (round : Fin n → S → S) (k : Nat) (h : k + 1 ≤ n) (s : S) :
    runRounds round (k + 1) h s = round ⟨k, h⟩ (runRounds round k (Nat.le_of_succ_le h) s) := rfl

@[simp] theorem runRounds_zero {S : Type} {n : Nat} (round : Fin n → S → S) (h : 0 ≤ n) (s : S) :
    runRounds round 0 h s = s := rfl

end Sys2Proof.Machine
end

