-- ==== Sys2Proof/Laws/PerInstr.lean ====
section
/-! SUPPORT. A family of statements about every command as syntax, one lemma per constructor: its word is legal by R73,
its reserved bits are zero, and its `OPC`, `W` and `FF` fields encode the operation, width and feed-forward that its
acceptance latches (R70, R201). -/

namespace Sys2Proof.Laws.WordFields

/-- The word of a command is legal and its fields encode what the command latches (R70, R73, R201). -/
def Statement (i : Instr) : Prop :=
  legal (encode i) = true ∧ (fieldsOf (encode i)).rsv = 0 ∧ (fieldsOf (encode i)).opc = i.op.code ∧
  (fieldsOf (encode i)).w = i.width.bit ∧ (fieldsOf (encode i)).ff = i.ff.code

theorem aesr : Statement .aesr := by unfold Statement; decide
theorem perm256 : Statement .perm256 := by unfold Statement; decide
theorem perm512 : Statement .perm512 := by unfold Statement; decide
theorem dm256 : Statement .dm256 := by unfold Statement; decide
theorem dm512 : Statement .dm512 := by unfold Statement; decide
theorem mmo256 : Statement .mmo256 := by unfold Statement; decide
theorem mmo512 : Statement .mmo512 := by unfold Statement; decide

end Sys2Proof.Laws.WordFields
end

