-- ==== Sys2Proof/Tests/Slice0.lean ====
section
/-! SUPPORT. Small tests of the model: the smoke test of WellFormed, the decoder on words written out bit by bit, the
vectors of 95_test_vectors.md, and a witness that the hypotheses of each statement can be met. -/

namespace Sys2Proof.Tests

open Sys2Proof Sys2Proof.Machine

/-- The lane whose bytes are listed, byte 0 first, as 95_test_vectors.md writes them. -/
def laneOfBytes (bs : List Byte) : Lane := loadLane fun j => bs.getD j 0

/-- The lane `n, n+1, ..., n+15`, a run of bytes as the vectors write it. -/
def seqLane (n : Nat) : Lane := loadLane fun j => BitVec.ofNat 8 (n + j)

/-- The idle block after reset, with the given inputs. -/
def idle (inputs : List Input) : State := { State.reset with inputs := inputs }

/-- A record in flight over zero operands. -/
def zeroPending (i : Instr) : Pending := { op := i.op, width := i.width, ff := i.ff, x := zeroLanes, kl := 0 }

/-- The block after reset and the acceptance of `i`, with the given inputs. -/
def inFlight (i : Instr) (inputs : List Input) : State :=
  { State.reset with
    inputs := inputs
    regs := { Regs.reset with
      cmdr := encode i, status := { busy := true, done := false, err := false, ecode := 0 }
      pend := some (zeroPending i) } }

/-- A field of the state a result leads to, if it leads to one. -/
def after {α : Type} (f : State → α) : Result → Option α
  | .next s => some (f s)
  | .fault _ => none
  | .refused _ => none

/-- The refusal a result is, if it is one. -/
def refusalOf : Result → Option Refusal
  | .next _ => none
  | .fault _ => none
  | .refused r => some r

/-! ## WellFormed: each check refuses an ill-formed term -/

theorem test_wellFormed_accepts_aligned_word : (Access.rd32 0xFC).wellFormed = true := by decide

theorem test_wellFormed_refuses_outside_window :
    (Access.rd32 0x100).defect = some .outsideWindow ∧ (Access.rd32 0x100).wellFormed = false := by decide

theorem test_wellFormed_refuses_other_width :
    ({ offset := 0x20, bytes := 1, write := some 0 } : Access).defect = some .width ∧
      ({ offset := 0x20, bytes := 8, write := none } : Access).wellFormed = false := by decide

theorem test_wellFormed_refuses_misaligned :
    (Access.rd32 0x22).defect = some .misaligned ∧ (Access.wr32 0x21 0).wellFormed = false := by decide

theorem test_wellFormed_every_command : ∀ i ∈ Instr.all, i.wellFormed = true := by decide

/-! ## Decoding: words written out from R70 and R72, `RSV`, `FF`, `W`, `OPC` from the left -/

theorem test_decode_aesr : decode 0b0000000000000000000000000_00_0_0001#32 = .command .aesr := by decide
theorem test_decode_perm256 : decode 0b0000000000000000000000000_00_0_0010#32 = .command .perm256 := by decide
theorem test_decode_perm512 : decode 0b0000000000000000000000000_00_1_0010#32 = .command .perm512 := by decide
theorem test_decode_dm256 : decode 0b0000000000000000000000000_01_0_0010#32 = .command .dm256 := by decide
theorem test_decode_dm512 : decode 0b0000000000000000000000000_01_1_0010#32 = .command .dm512 := by decide
theorem test_decode_mmo256 : decode 0b0000000000000000000000000_10_0_0010#32 = .command .mmo256 := by decide
theorem test_decode_mmo512 : decode 0b0000000000000000000000000_10_1_0010#32 = .command .mmo512 := by decide

/-- R74: the nearest illegal words, each with one field wrong (95_test_vectors.md section 3). -/
theorem test_decode_rejects_by_name :
    decode 0b0000000000000000000000000_11_1_0010#32 = .illegal .reservedFeedForward ∧
    decode 0b0000000000000000000000000_00_1_0001#32 = .illegal .aesrFields ∧
    decode 0b0000000000000000000000000_00_0_0011#32 = .illegal .reservedOpcode ∧
    decode 0b1000000000000000000000000_00_1_0010#32 = .illegal .reservedBits := by decide

/-- R55: the byte at the lowest offset is the least significant byte of the word. -/
theorem test_decodeBytes_little_endian :
    decodeBytes [0x52, 0x00, 0x00, 0x00, 0xAB] = (.command .mmo512, [0xAB]) ∧
    decodeBytes [0x00, 0x00, 0x00, 0x52] = (.illegal .reservedBits, []) ∧
    decodeBytes [0x52, 0x00] = (.illegal .truncated, [0x52, 0x00]) := by decide

theorem test_decodeTableWord_reads_each_row :
    [0x01, 0x02, 0x12, 0x22, 0x32, 0x42, 0x52].map (decodeTableWord 32) = Instr.all.map some := by decide

/-- A table word shorter than 32 bits has zeros above, and a bit above the word's length is dropped. -/
theorem test_decodeTableWord_short_word :
    decodeTableWord 8 0x42 = some .mmo256 ∧ decodeTableWord 8 0x142 = some .mmo256 ∧
      decodeTableWord 40 0x100000001 = none := by decide

/-- R76: mnemonics are case-insensitive. -/
theorem test_mnemonic_small_letters :
    Instr.ofMnemonic ['m', 'm', 'O', '5', '1', '2'] = some .mmo512 ∧ Instr.ofMnemonic ['D', 'M'] = none := by decide

/-! ## The AES stage (95_test_vectors.md section 2) -/

/-- FIPS-197 Appendix B round 1, the worked example of R107. -/
theorem test_aes_fips_round_one :
    aesRound (laneOfBytes [0x19, 0x3d, 0xe3, 0xbe, 0xa0, 0xf4, 0xe2, 0x2b, 0x9a, 0xc6, 0x8d, 0x2a, 0xe9, 0xf8, 0x48, 0x08])
      (laneOfBytes [0xa0, 0xfa, 0xfe, 0x17, 0x88, 0x54, 0x2c, 0xb1, 0x23, 0xa3, 0x39, 0x39, 0x2a, 0x6c, 0x76, 0x05]) =
    laneOfBytes [0xa4, 0x9c, 0x7f, 0xf2, 0x68, 0x9f, 0x35, 0x2b, 0x6b, 0x5b, 0xea, 0x43, 0x02, 0x6a, 0x50, 0x49] := by
  decide +kernel

/-- V-A4: distinct bytes exercise ShiftRows. -/
theorem test_aes_distinct_bytes :
    aesRound (seqLane 0) 0 =
      laneOfBytes [0x6a, 0x6a, 0x5c, 0x45, 0x2c, 0x6d, 0x33, 0x51, 0xb0, 0xd9, 0x5d, 0x61, 0x27, 0x9c, 0x21, 0x5c] := by
  decide +kernel

/-- V-A5: the same lane in both operands. -/
theorem test_aes_equal_operands :
    aesRound (seqLane 0) (seqLane 0) =
      laneOfBytes [0x6a, 0x6b, 0x5e, 0x46, 0x28, 0x68, 0x35, 0x56, 0xb8, 0xd0, 0x57, 0x6a, 0x2b, 0x91, 0x2f, 0x53] := by
  decide +kernel

/-- V-A6: the last round, which no command exposes. -/
theorem test_aes_last_round :
    aesRoundLast (seqLane 0) 0 =
      laneOfBytes [0x63, 0x6b, 0x67, 0x76, 0xf2, 0x01, 0xab, 0x7b, 0x30, 0xd7, 0x77, 0xc5, 0xfe, 0x7c, 0x6f, 0x2b] := by
  decide +kernel

/-- G1: `S[0x53] = 0xed`, the FIPS-197 worked example. -/
theorem test_sbox_fips : sbox 0x53 = 0xed ∧ sbox 0x00 = 0x63 ∧ sbox 0xff = 0x16 := by decide

/-! ## CAND, the candidate round parameters (95_test_vectors.md section 5 and 6) -/

/-- R129, row 14: byte 0 of the lane is the least significant byte of the integer. -/
theorem test_cand_constant :
    candConstant 14 =
      laneOfBytes [0xb6, 0x10, 0xab, 0x2a, 0x6a, 0x39, 0xca, 0x55, 0x40, 0x14, 0xe8, 0x63, 0x62, 0x98, 0x48, 0x57] := by
  decide +kernel

/-- V-P8: one CAND round of Areion-256. -/
theorem test_cand_one_round256 :
    candRound256 (candConstant 0) { x0 := 0, x1 := 0 } =
      { x0 := laneOfBytes [0xbb, 0x85, 0x46, 0xb0, 0xc6, 0x13, 0x63, 0xb0, 0xfa, 0x33, 0xef, 0xec, 0xd8, 0x9d, 0x05, 0x37],
        x1 := 0x63636363636363636363636363636363#128 } := by
  decide +kernel

/-- V-P2: the CAND Areion-256 permutation of the lanes `00..0f` and `10..1f`. -/
theorem test_cand_p256_sequence :
    p256 cand { x0 := seqLane 0x00, x1 := seqLane 0x10 } =
      { x0 := laneOfBytes [0x17, 0xee, 0xd6, 0x0d, 0x8e, 0x2c, 0x10, 0x49, 0xe1, 0x4e, 0x53, 0x5e, 0x0d, 0x5f, 0xa2, 0x7a],
        x1 := laneOfBytes [0xc7, 0xad, 0xbf, 0xed, 0x11, 0xf5, 0x49, 0x22, 0xd9, 0xdf, 0x53, 0xa4, 0x3d, 0x20, 0x6b, 0xae] } := by
  decide +kernel

/-- V-P5: the CAND Areion-512 permutation of the lanes `00..3f`. -/
theorem test_cand_p512_sequence :
    p512 cand { x0 := seqLane 0x00, x1 := seqLane 0x10, x2 := seqLane 0x20, x3 := seqLane 0x30 } =
      { x0 := laneOfBytes [0xe6, 0xc4, 0xb7, 0x16, 0x25, 0xe8, 0xed, 0x2b, 0xeb, 0xda, 0xc4, 0xe0, 0x15, 0x33, 0x70, 0x7a],
        x1 := laneOfBytes [0xe7, 0xbf, 0xff, 0xad, 0x1b, 0xc2, 0x0e, 0x24, 0xc6, 0x59, 0xd7, 0x81, 0x32, 0x5f, 0xfb, 0x1c],
        x2 := laneOfBytes [0x99, 0x41, 0x80, 0x1c, 0xe8, 0xac, 0x15, 0x52, 0x2b, 0xc4, 0x80, 0x03, 0x6b, 0x5f, 0xde, 0xb9],
        x3 := laneOfBytes [0x65, 0x05, 0xf4, 0x9e, 0x8c, 0xf1, 0x2e, 0x7e, 0xf5, 0x08, 0x01, 0x97, 0x97, 0x6f, 0xf8, 0xfc] } := by
  decide +kernel

/-- V-C14: the message lane fed forward over all-ones input. -/
theorem test_cand_mmo256_ones :
    (compress256 cand .message { x0 := BitVec.allOnes 128, x1 := BitVec.allOnes 128, x2 := 0, x3 := 0 }).x1 =
      laneOfBytes [0xe6, 0x37, 0x4c, 0xd4, 0x60, 0x1d, 0x59, 0x12, 0x40, 0x35, 0x5b, 0x06, 0xa8, 0x4f, 0xaa, 0xdd] := by
  decide +kernel

/-- V-C15: the chaining half fed forward over all-ones input, lane 1. -/
theorem test_cand_dm512_ones :
    (compress512 cand .chaining
      { x0 := BitVec.allOnes 128, x1 := BitVec.allOnes 128, x2 := BitVec.allOnes 128, x3 := BitVec.allOnes 128 }).x1 =
      laneOfBytes [0xb8, 0x46, 0x43, 0x17, 0x00, 0x17, 0x47, 0x09, 0xcb, 0x11, 0x64, 0x2c, 0x0e, 0xc0, 0x39, 0x14] := by
  decide +kernel

/-! ## One step: the window, the status transitions, reset (95_test_vectors.md section 4) -/

/-- V-M1, V-M2, V-M6: reads after reset. -/
theorem test_reads_after_reset :
    [0x00, 0x04, 0x08, 0x0C, 0x60, 0xA0].map (fun o => after (·.replies) (step (idle [.access (.rd32 o)]))) =
      ([[0x41524501], [0], [0], [0], [0], [0]] : List (List Word)).map some := by decide

/-- V-M3: the second word of `IN[0]` and no other. -/
theorem test_write_second_word_of_in0 :
    after (·.regs.ins.x0) (step (idle [.access (.wr32 0x24 0x07060504)])) =
      some 0x00000000000000000706050400000000#128 := by decide

/-- V-M5, V-M7: writes to read-only registers are ignored. -/
theorem test_read_only_registers_ignore_writes :
    [0x00, 0x08, 0x0C, 0x60, 0x9C, 0xA0, 0xFC].map
      (fun o => after (·.regs) (step (idle [.access (.wr32 o 0xffffffff)]))) =
      List.replicate 7 (some Regs.reset) := by decide

/-- V-M8: an 8-bit write to `0x20` and a 32-bit read at `0x22` are refused. -/
theorem test_undefined_accesses_are_refused :
    refusalOf (step (idle [.access { offset := 0x20, bytes := 1, write := some 0 }])) = some .accessWidth ∧
    refusalOf (step (idle [.access (.rd32 0x22)])) = some .accessMisaligned ∧
    refusalOf (step (idle [.access (.rd32 0x100)])) = some .outsideWindow ∧
    refusalOf (step { idle [.access (.rd32 0x00)] with inReset := true }) = some .accessDuringReset := by decide

/-- V-S1: each command, presented to an idle block, sets `BUSY` and `CMDR`. -/
theorem test_acceptance :
    Instr.all.map (fun i => after (fun t => (t.regs.cmdr, t.regs.status.word)) (exec i State.reset)) =
      ([0x01, 0x02, 0x12, 0x22, 0x32, 0x42, 0x52] : List Word).map fun w => some (w, (0x00000001 : Word)) := by decide

/-- V-S3: an illegal word clears `DONE` and gives `STATUS = 0x14`. -/
theorem test_illegal_word_clears_done :
    after (fun t => t.regs.status.word) (step { idle [.access (.wr32 0x04 0x00000062)] with
      regs := { Regs.reset with status := { busy := false, done := true, err := false, ecode := 0 } } }) =
      some 0x00000014 := by decide

/-- V-S4, V-S6: any word while busy gives `STATUS = 0x25`, the illegal word zero among them. -/
theorem test_busy_wins :
    [0x00000000, 0x00000001].map
      (fun w => after (fun t => (t.regs.status.word, t.regs.cmdr)) (step (inFlight .perm512 [.access (.wr32 0x04 w)]))) =
      List.replicate 2 (some ((0x00000025 : Word), (0x00000012 : Word))) := by decide

/-- V-S2, V-S5: completion of `AESR` on zero operands (V-A1), with and without a recorded `CMD_BUSY`. -/
theorem test_completion_of_aesr :
    after (fun t => (t.regs.outs.x0, t.regs.outs.x1, t.regs.status.word)) (step (inFlight .aesr [.engine])) =
      some (0x63636363636363636363636363636363#128, 0#128, 0x00000002#32) := by decide +kernel

theorem test_completion_keeps_error :
    (Status.completed { busy := true, done := false, err := true, ecode := 2 }).word = 0x00000026#32 := by decide

/-- V-S9: reset abandons the command in flight. -/
theorem test_reset_abandons :
    after (fun t => (t.regs, t.inReset)) (step (inFlight .dm512 [.resetAsserted])) = some (Regs.reset, true) := by decide

/-- The first step after reset with a table word placed runs it. -/
theorem test_withFetchWord_runs_the_word :
    [0x01, 0x02, 0x12, 0x22, 0x32, 0x42, 0x52].map
      (fun w => after (·.regs.cmdr) (step (State.reset.withFetchWord 32 w))) =
      ([0x01, 0x02, 0x12, 0x22, 0x32, 0x42, 0x52] : List Word).map some := by decide

/-! ## Witnesses: the hypotheses of each statement are met by a concrete state and operands -/

theorem witness_ByteDecoderInvertsTheEncoder :
    Instr.mmo256.wellFormed = true ∧ decodeBytes [0x42, 0, 0, 0, 0x07] = (.command .mmo256, [0x07]) := by decide

theorem witness_IllegalWordsAreTheReservedOnes :
    AtPort (idle [.access (.wr32 0x04 0x00000062)]) (.wr32 0x04 0x00000062) [] ∧ legal 0x00000062 = false ∧
      (idle [.access (.wr32 0x04 0x00000062)]).regs.status.busy = false := by decide

theorem witness_ZeroWordIsAnIllegalCommand :
    AtPort (idle [.access (.wr32 0x04 0)]) (.wr32 0x04 0) [] ∧
      (idle [.access (.wr32 0x04 0)]).regs.status.busy = false := by decide

theorem witness_MnemonicsNameTheCommands :
    Instr.ofMnemonic ['a', 'E', 's', 'R'] = some .aesr ∧
      ['a', 'E', 's', 'R'].map Char.toUpper = Instr.aesr.mnemonic := by decide

theorem witness_StepRunsTheDecodedCommand :
    AtPort (idle [.access (.wr32 0x04 0x00000052)]) (.wr32 0x04 0x00000052) [] ∧
      decode 0x00000052 = .command .mmo512 ∧ Instr.mmo512.wellFormed = true ∧
      decodeTableWord 32 0x52 = some .mmo512 := by decide

/-- R201's three branches: busy, idle with an illegal word, idle with a legal word. -/
theorem witness_CommandWriteFollowsTheAcceptanceRule :
    (AtPort (inFlight .aesr [.access (.wr32 0x04 0)]) (.wr32 0x04 0) [] ∧
      (inFlight .aesr [.access (.wr32 0x04 0)]).regs.status.busy = true) ∧
    (AtPort (idle [.access (.wr32 0x04 0x00000011)]) (.wr32 0x04 0x00000011) [] ∧ legal 0x00000011 = false ∧
      (idle [.access (.wr32 0x04 0x00000011)]).regs.status.busy = false) ∧
    (AtPort (idle [.access (.wr32 0x04 0x00000001)]) (.wr32 0x04 0x00000001) [] ∧ legal 0x00000001 = true ∧
      (idle [.access (.wr32 0x04 0x00000001)]).regs.status.busy = false) := by decide

theorem witness_RejectionRecordsOnlyTheLatestCode :
    (AtPort (inFlight .mmo256 [.access (.wr32 0x04 0x00000042)]) (.wr32 0x04 0x00000042) [] ∧
      (inFlight .mmo256 [.access (.wr32 0x04 0x00000042)]).regs.status.busy = true) ∧
    (AtPort (idle [.access (.wr32 0x04 0x80000012)]) (.wr32 0x04 0x80000012) [] ∧ legal 0x80000012 = false ∧
      (idle [.access (.wr32 0x04 0x80000012)]).regs.status.busy = false) := by decide

/-- For each of the seven command statements: an idle state, a busy state, and a state whose next input is the engine's
turn with that command in flight. -/
theorem witness_CommandStatements :
    ∀ i ∈ Instr.all, (idle []).regs.status.busy = false ∧ (inFlight i []).regs.status.busy = true ∧
      (inFlight i [.engine]).inputs = [.engine] ∧
      (inFlight i [.engine]).regs.pend =
        some { op := i.op, width := i.width, ff := i.ff, x := zeroLanes, kl := 0 } := by decide

theorem witness_CommandPresentationFrame :
    (∃ t, exec .dm256 State.reset = .next t) ∧
    (∃ t, exec .dm256 (inFlight .aesr []) = .next t) ∧ (inFlight .aesr []).regs.status.busy = true ∧
    [0x00, 0x0C, 0x10, 0x5C, 0xA0, 0xFC].all (fun o => decide (o ≠ 0x04 ∧ o ≠ 0x08 ∧ (o < 0x60 ∨ 0xA0 ≤ o))) = true :=
  ⟨⟨_, rfl⟩, ⟨_, rfl⟩, rfl, by decide⟩

/-- The engine's turn with nothing pending, and with each shape of record pending. -/
theorem witness_CompletionWritesTheResult :
    (idle [.engine]).inputs = [.engine] ∧ (idle [.engine]).regs.pend = none ∧
    (inFlight .mmo512 [.engine]).inputs = [.engine] ∧
    (inFlight .aesr [.engine]).regs.pend = some (zeroPending .aesr) ∧ (zeroPending .aesr).op = .aesr ∧
    (inFlight .dm256 [.engine]).regs.pend = some (zeroPending .dm256) ∧
    (zeroPending .dm256).op = .perm ∧ (zeroPending .dm256).width = .w256 ∧
    (inFlight .mmo512 [.engine]).regs.pend = some (zeroPending .mmo512) ∧
    (zeroPending .mmo512).op = .perm ∧ (zeroPending .mmo512).width = .w512 := by decide

theorem witness_CompletionFrame :
    (inFlight .aesr [.engine, .engine]).inputs = .engine :: [.engine] ∧
    (inFlight .aesr [.engine, .engine]).regs.pend = some (zeroPending .aesr) ∧ (zeroPending .aesr).op = .aesr ∧
    (zeroPending .perm256).width = .w256 := by decide

/-- Two `AESR` records that differ in `X[1]`, two 256-bit ones that differ in `KL`, and two 512-bit ones. -/
theorem witness_ResultReadsOnlyTheOperandsOfItsCommand :
    ∃ p p' q q' r r' : Pending,
      (p.op = p'.op ∧ p.width = p'.width ∧ p.ff = p'.ff ∧ p.op = .aesr ∧ p.x.x0 = p'.x.x0 ∧ p.kl = p'.kl ∧ p ≠ p') ∧
      (q.op = q'.op ∧ q.width = q'.width ∧ q.ff = q'.ff ∧ q.op = .perm ∧ q.width = .w256 ∧ q.x.x0 = q'.x.x0 ∧
        q.x.x1 = q'.x.x1 ∧ q ≠ q') ∧
      (r.op = r'.op ∧ r.width = r'.width ∧ r.ff = r'.ff ∧ r.op = .perm ∧ r.width = .w512 ∧ r.x = r'.x ∧ r ≠ r') :=
  ⟨zeroPending .aesr, { zeroPending .aesr with x := { zeroLanes with x1 := 1 } },
    zeroPending .mmo256, { zeroPending .mmo256 with kl := 1 },
    zeroPending .dm512, { zeroPending .dm512 with kl := 1 }, by decide, by decide, by decide⟩

/-- Each of the six phases of `STATUS` has a state that satisfies the invariant. -/
theorem witness_StatusIsOneOfSixValues :
    ∀ x ∈ ([(0x00, none, ⟨false, false, false, 0⟩), (0x01, some (zeroPending .aesr), ⟨true, false, false, 0⟩),
        (0x01, none, ⟨false, true, false, 0⟩), (0x00, none, ⟨false, false, true, 1⟩),
        (0x01, some (zeroPending .aesr), ⟨true, false, true, 2⟩), (0x01, none, ⟨false, true, true, 2⟩)] :
        List (Word × Option Pending × Status)),
      Regs.Inv { Regs.reset with cmdr := x.1, pend := x.2.1, status := x.2.2 } := by
  decide

/-- A read at the first and the last offset of each register, idle and busy. -/
theorem witness_ReadReturnsTheRegister :
    [0x00, 0x04, 0x08, 0x0C, 0x10, 0x1C, 0x20, 0x5C, 0x60, 0x9C, 0xA0, 0xFC].all (fun o => decide
      (AtPort (idle [.access (.rd32 o)]) (.rd32 o) [] ∧ AtPort (inFlight .aesr [.access (.rd32 o)]) (.rd32 o) [] ∧
        o % 4 = 0 ∧ o ≤ 0xFC)) = true ∧
    (0x1C = 0x10 + 4 * (3 : Fin 4).val ∧ 0x5C = 0x20 + 16 * (3 : Fin 4).val + 4 * (3 : Fin 4).val ∧
      0x9C = 0x60 + 16 * (3 : Fin 4).val + 4 * (3 : Fin 4).val) ∧
    (idle [.access (.rd32 0x9C)]).regs.status.busy = false ∧
    (inFlight .aesr [.access (.rd32 0x9C)]).regs.status.busy = true := by decide

/-- The first and the last word of `OUT` while busy, the words beside them, and an idle read. -/
theorem witness_BusyOutputReadDrawsTheNextFreeValue :
    [0x60, 0x9C, 0x5C, 0xA0].all (fun o => decide (AtPort (inFlight .aesr [.access (.rd32 o)]) (.rd32 o) [] ∧
      o % 4 = 0 ∧ o ≤ 0xFC)) = true ∧
    (inFlight .aesr [.access (.rd32 0x60)]).regs.status.busy = true ∧ (0x60 ≤ 0x9C ∧ 0x9C < 0xA0) ∧
    (AtPort (idle [.access (.rd32 0x60)]) (.rd32 0x60) [] ∧
      (idle [.access (.rd32 0x60)]).regs.status.busy = false) := by decide

/-- A write at the first and the last offset of each register. -/
theorem witness_WriteChangesOnlyTheAddressedWord :
    [0x00, 0x04, 0x08, 0x0C, 0x10, 0x1C, 0x20, 0x5C, 0x60, 0x9C, 0xA0, 0xFC].all (fun o => decide
      (AtPort (idle [.access (.wr32 o 7)]) (.wr32 o 7) [] ∧ o % 4 = 0 ∧ o ≤ 0xFC)) = true ∧
    (0x1C = 0x10 + 4 * (3 : Fin 4).val ∧ 0x5C = 0x20 + 16 * (3 : Fin 4).val + 4 * (3 : Fin 4).val) := by decide

theorem witness_ReservedOffsetsReadZeroAndIgnoreWrites :
    [0x0C, 0xA0, 0xFC].all (fun o => decide (o % 4 = 0 ∧ (o = 0x0C ∨ (0xA0 ≤ o ∧ o ≤ 0xFC)) ∧
      AtPort (idle [.access (.rd32 o)]) (.rd32 o) [] ∧ AtPort (idle [.access (.wr32 o 7)]) (.wr32 o 7) [])) = true := by
  decide

/-- Two equal accesses in a row: reads of `ID`, `OUT` and the last reserved word, writes of `K` and `IN`, a legal
command. -/
theorem witness_OnlyCommandWritesHaveSideEffects :
    [0x00, 0x60, 0xFC].all (fun o => decide (AtPort (idle [.access (.rd32 o), .access (.rd32 o)]) (.rd32 o)
      [.access (.rd32 o)] ∧ o % 4 = 0 ∧ o ≤ 0xFC)) = true ∧
    [0x00, 0x10, 0x5C, 0xFC].all (fun o => decide (AtPort (idle [.access (.wr32 o 7), .access (.wr32 o 7)]) (.wr32 o 7)
      [.access (.wr32 o 7)] ∧ o % 4 = 0 ∧ o ≤ 0xFC ∧ o ≠ 0x04)) = true ∧
    (AtPort (idle [.access (.wr32 0x04 0x02), .access (.wr32 0x04 0x02)]) (.wr32 0x04 0x02) [.access (.wr32 0x04 0x02)] ∧
      legal 0x02 = true) := by decide

/-- Four writes of the words of `K`, and of `IN[0]` and `IN[3]`. -/
theorem witness_RegisterWordsAreLittleEndian :
    (idle []).inReset = false ∧
    (∃ s : State, s.inReset = false ∧ s.inputs =
      [.access (.wr32 0x10 1), .access (.wr32 0x14 2), .access (.wr32 0x18 3), .access (.wr32 0x1C 4)]) ∧
    ([0, 3] : List (Fin 4)).all (fun i => decide (0x20 + 16 * i.val ≤ 0x50 ∧ 0x2C + 16 * i.val ≤ 0x5C)) = true :=
  ⟨rfl, ⟨idle _, rfl, rfl⟩, by decide⟩

/-- An address below the window exists only where `ARE_BASE` is not zero; the address just above it always does. -/
theorem witness_WindowLiesAtTheBaseAddress :
    (0xFC : Nat) < 0x100 ∧ ∃ addr, addr < Config.areBase ∨ Config.areBase + 0x100 ≤ addr :=
  ⟨by decide, Config.areBase + 0x100, .inr (Nat.le_refl _)⟩

/-- The bounds of the byte, row and column indices are met at their ends. -/
theorem witness_LaneIndexBounds :
    (15 : Nat) < 16 ∧ (3 : Nat) < 4 := by decide

/-- A word with `FF = 11`, and lane 3 of the wider state. -/
theorem witness_FeedForwardMaskByHalf :
    (0x00000062#32).extractLsb' 5 2 = 0b11#2 ∧ (1 : Fin 4).val < Width.w256.lanes ∧
      (3 : Fin 4).val < Width.w512.lanes := by decide

/-- An input with both halves zero meets the hypotheses of the third law. -/
theorem witness_FeedForwardLaws :
    zeroLanes.x0 = 0 ∧ zeroLanes.x1 = 0 ∧ zeroLanes.x2 = 0 ∧ zeroLanes.x3 = 0 := by decide

/-- A command in flight, with a poll, a write of `IN` and a rejected command still to come. -/
theorem witness_AcceptedCommandCompletes :
    ∃ s : State, s.inReset = false ∧ s.regs.status.busy = true ∧ s.regs.pend = some (zeroPending .dm512) ∧
      s.inputs.length = 3 ∧ ∀ i ∈ s.inputs, i.keepsRunning = true :=
  ⟨inFlight .dm512 [.access (.rd32 0x08), .access (.wr32 0x20 7), .access (.wr32 0x04 0x01)], by decide, by decide,
    by decide, by decide, by decide⟩

theorem witness_AccessesDoNotDisturbTheCommandInFlight :
    ∃ s : State, s.inReset = false ∧ s.regs.status.busy = true ∧ s.regs.pend = some (zeroPending .aesr) ∧
      (∀ a ∈ [Access.wr32 0x20 7, .wr32 0x10 7, .wr32 0x04 0x02], a.wellFormed = true) ∧
      s.inputs = [Access.wr32 0x20 7, .wr32 0x10 7, .wr32 0x04 0x02].map Input.access ++ [.engine] :=
  ⟨inFlight .aesr ([Access.wr32 0x20 7, .wr32 0x10 7, .wr32 0x04 0x02].map Input.access ++ [.engine]), by decide,
    by decide, by decide, by decide, by decide⟩

/-- States that satisfy the invariant and step on: idle, in flight, and held in reset. -/
theorem witness_EveryStepKeepsTheInvariant :
    (idle [.access (.wr32 0x04 0x01)]).Inv ∧ (∃ t, step (idle [.access (.wr32 0x04 0x01)]) = .next t) ∧
    (inFlight .mmo512 [.engine]).Inv ∧ (∃ t, step (inFlight .mmo512 [.engine]) = .next t) ∧
    ({ idle [.resetReleased] with inReset := true } : State).Inv :=
  ⟨by decide, ⟨_, rfl⟩, by decide, ⟨_, rfl⟩, by decide⟩

/-- Two states that differ in `K` and in a permutation's copy of it. -/
theorem witness_KReachesOnlyTheAesRound :
    ∃ s t : State, SameButK s t ∧ s ≠ t ∧ s.inputs = [.engine] ∧
      (∀ i ∈ s.inputs, i.showsK s.regs = false) ∧ ∃ s', step s = .next s' :=
  ⟨inFlight .dm512 [.engine],
    { inFlight .dm512 [.engine] with regs := { (inFlight .dm512 []).regs with
      k := 1, pend := some { zeroPending .dm512 with kl := 1 } } },
    by decide, by decide, by decide, by decide, ⟨_, rfl⟩⟩

theorem witness_ResetAbandonsTheCommandInFlight :
    ((inFlight .perm512 [.resetAsserted]).inputs = [.resetAsserted] ∧
      (inFlight .perm512 [.resetAsserted]).regs.status.busy = true) ∧
    ∃ s t : State, s.regs.status.busy = true ∧ s.regs.pend = some (zeroPending .perm512) ∧ step s = .next t ∧
      ∀ rest, s.inputs ≠ .resetAsserted :: rest :=
  ⟨by decide, inFlight .perm512 [.engine], _, rfl, rfl, rfl, fun rest h => by simp [inFlight] at h⟩

theorem witness_AccessesDuringResetAreRefused :
    ({ idle [.access (.rd32 0x00)] with inReset := true } : State).inReset = true ∧
    ({ idle [.access (.rd32 0x00)] with inReset := true } : State).inputs = [.access (.rd32 0x00)] ∧
    (inFlight .aesr [.resetAsserted, .resetReleased]).inputs = [.resetAsserted, .resetReleased] := by decide

/-- Program P4's two schedules: `PERM512`, then `AESR` without a look at `BUSY`. -/
theorem witness_ScheduleDecidesTheSecondCommand :
    ∃ s t : State, s.inReset = false ∧ s.regs.status.busy = false ∧ t.inReset = false ∧ t.regs.status.busy = false ∧
      s.inputs = [.access (.wr32 0x04 (encode .perm512)), .engine, .access (.wr32 0x04 (encode .aesr))] ∧
      t.inputs = [.access (.wr32 0x04 (encode .perm512)), .access (.wr32 0x04 (encode .aesr)), .engine] :=
  ⟨idle _, idle _, rfl, rfl, rfl, rfl, rfl, rfl⟩

theorem witness_DoneBelongsToTheLastAcceptedCommand :
    (AtPort (inFlight .dm256 [.access (.wr32 0x04 0x22), .engine]) (.wr32 0x04 0x22) [.engine] ∧
      (inFlight .dm256 []).regs.status.busy = true ∧ (inFlight .dm256 []).regs.pend = some (zeroPending .dm256)) ∧
    (AtPort (idle [.access (.wr32 0x04 0x72), .access (.rd32 0x08), .engine]) (.wr32 0x04 0x72)
        [.access (.rd32 0x08), .engine] ∧
      legal 0x72 = false ∧ (idle []).regs.status.busy = false ∧ (idle []).regs.pend = none ∧
      ∀ i ∈ [Input.access (.rd32 0x08), .engine], i.pollsStatus = true) := by decide

theorem witness_PartialLaneWriteLatchesAMixedLane :
    ∃ s : State, s.inReset = false ∧ s.regs.status.busy = false ∧
      s.inputs = [.access (.wr32 0x20 1), .access (.wr32 0x04 (encode .perm256)), .access (.wr32 0x24 2)] :=
  ⟨idle _, rfl, rfl, rfl⟩

theorem witness_WrlaneThenRdlaneReturnsTheLane :
    (∀ i, LaneReg.k ≠ .output i) ∧ (∀ i, LaneReg.input 3 ≠ .output i) ∧ State.reset.inReset = false := by decide

/-- A script of one line, `cmd DM512`. -/
theorem witness_CmdLineRunsTheCommand :
    State.reset.inReset = false ∧ cmdLine .dm512 = [.wr32 0x04 (.word 0x32)] ∧
      ({ lines := [.wr32 0x04 (.word 0x32)], pc := 0, vars := [] } : Script).lines[0]? =
        some (.wr32 0x04 (.word 0x32)) := by decide

/-- A finished and a running command, one for each way out of a round of the wait loops. -/
theorem witness_WaitLoopsPollStatus :
    (idle []).inReset = false ∧ (idle []).regs.status.done = false ∧ (idle []).regs.status.busy = false ∧
      (inFlight .aesr []).regs.status.busy = true := by decide

end Sys2Proof.Tests
end

section
/-! PROOF. Rules about the registers of the window and the decoder that the statements about the state use: which offsets
reach `CMD`, `STATUS` and `OUT`, which registers a read depends on, and that the decoder inverts the encoder. -/

namespace Sys2Proof.Machine

open Sys2Proof

theorem slotAt_eq_cmd_iff (o : Nat) : slotAt o = .cmd ↔ o = 0x04 := by
  unfold slotAt
  split_ifs <;> simp <;> omega

theorem slotAt_eq_status_iff (o : Nat) : slotAt o = .status ↔ o = 0x08 := by
  unfold slotAt
  split_ifs <;> simp <;> omega

/-- The words of `OUT` are the offsets `0x60` to `0x9F` (R51). -/
theorem slotAt_isOutput_iff (o : Nat) : (slotAt o).isOutput = true ↔ 0x60 ≤ o ∧ o < 0xA0 := by
  unfold slotAt
  split_ifs <;> simp [Slot.isOutput] <;> omega

/-- Outside `OUT` a read depends on the register at the slot and on no draw (R56). -/
theorem readSlot_congr {sl : Slot} {r r' : Regs} (draw : Word) (ho : sl.isOutput = false) (hk : r.k = r'.k)
    (hi : r.ins = r'.ins) (hc : sl = .cmd → r.cmdr = r'.cmdr) (hs : sl = .status → r.status = r'.status) :
    readSlot sl draw r = readSlot sl draw r' := by
  cases sl with
  | id => rfl
  | cmd => exact hc rfl
  | status => exact congrArg Status.word (hs rfl)
  | k q => exact congrArg (laneWord · q) hk
  | input i q => exact congrArg (fun x => laneWord (laneAt x i) q) hi
  | output i q => cases ho
  | reserved => rfl

/-- Outside `STATUS` and `OUT` a read depends on `CMDR`, `K` and `IN` alone, and at no offset but that of `CMD` on `CMDR`
(R51, R56). -/
theorem readSlot_slotAt_congr {o : Nat} {r r' : Regs} (draw : Word) (ho : o < 0x60 ∨ 0xA0 ≤ o) (h8 : o ≠ 0x08)
    (hk : r.k = r'.k) (hi : r.ins = r'.ins) (hc : o = 0x04 → r.cmdr = r'.cmdr) :
    readSlot (slotAt o) draw r = readSlot (slotAt o) draw r' := by
  have hout : (slotAt o).isOutput = false := by
    rw [Bool.eq_false_iff, Ne, slotAt_isOutput_iff]
    omega
  exact readSlot_congr draw hout hk hi (fun h => hc ((slotAt_eq_cmd_iff o).1 h))
    (fun h => absurd ((slotAt_eq_status_iff o).1 h) h8)

/-- The decoder reads from the word of a command that command (R72). -/
@[simp] theorem decode_encode (i : Instr) : decode (encode i) = .command i := by
  cases i <;> decide

/-- The word of a command is legal (R73). -/
@[simp] theorem legal_encode (i : Instr) : legal (encode i) = true := by
  cases i <;> decide

/-- Putting the bytes of a word together again gives the word (R55). -/
theorem decodeBytes_bytesOfWord (w : Word) : decodeBytes (bytesOfWord w) = (decode w, []) := by
  have hw : wordOfBytes (w.extractLsb' 0 8) (w.extractLsb' 8 8) (w.extractLsb' 16 8) (w.extractLsb' 24 8) = w := by
    unfold wordOfBytes
    rw [BitVec.extractLsb'_append_extractLsb'_eq_extractLsb' (by rfl),
      BitVec.extractLsb'_append_extractLsb'_eq_extractLsb' (by rfl),
      BitVec.extractLsb'_append_extractLsb'_eq_extractLsb' (by rfl)]
    simp
  simp only [bytesOfWord, decodeBytes, hw]

/-- A table word with a command is the word from which the decoder reads that command. -/
theorem decode_tableWord {nbits w : Nat} {i : Instr} (h : decodeTableWord nbits w = some i) :
    decode (tableWord nbits w) = .command i := by
  unfold decodeTableWord at h
  rw [decodeBytes_bytesOfWord] at h
  split at h
  · cases hd : decode (tableWord nbits w) with
    | command j => simpa [hd, Decoded.instr?] using h
    | illegal why => simp [hd, Decoded.instr?] at h
  · cases h

/-- `STATUS` bit by bit (R25). -/
theorem Status.getLsbD_word (s : Status) (j : Nat) :
    s.word.getLsbD j =
      if j = 0 then s.busy else if j = 1 then s.done else if j = 2 then s.err else if j = 3 then false
      else s.ecode.getLsbD (j - 4) := by
  simp only [Status.word, BitVec.getLsbD_setWidth, BitVec.getLsbD_append, BitVec.getLsbD_ofBool]
  match j with
  | 0 | 1 | 2 | 3 => simp
  | j + 4 =>
    have hj : s.ecode.getLsbD j = true → j + 4 < 32 := fun h => by
      have := BitVec.lt_of_getLsbD h
      omega
    simpa using hj

/-- From bit 4 on `STATUS` holds `ECODE` (R25). -/
theorem Status.getLsbD_word_add_four (s : Status) (j : Nat) : s.word.getLsbD (j + 4) = s.ecode.getLsbD j := by
  simpa using s.getLsbD_word (j + 4)

end Sys2Proof.Machine
end

section
/-! PROOF. The invariant of the machine: each operation on the registers keeps it, so every step does (R24, R25, R27, R202,
R230); what it says of `STATUS`. -/

namespace Sys2Proof.Machine

open Sys2Proof

/-- The invariant speaks of `CMDR`, `STATUS` and `PEND` only. -/
theorem Regs.Inv.congr {r r' : Regs} (h : r.Inv) (hc : r'.cmdr = r.cmdr) (hs : r'.status = r.status)
    (hp : r'.pend = r.pend) : r'.Inv := by
  simpa only [Regs.Inv, pendMatchesCmdr, hc, hs, hp] using h

theorem Regs.inv_reset : Regs.reset.Inv := by decide

/-- A write to any register but `CMD` keeps the invariant (R57). -/
theorem Regs.Inv.writeSlot {r : Regs} (h : r.Inv) (sl : Slot) (v : Word) : (writeSlot sl v r).Inv :=
  h.congr (by simp) (by simp) (by simp)

/-- `CMD_BUSY` keeps the invariant (R202, R203). -/
theorem Regs.Inv.raise_cmdBusy {r : Regs} (h : r.Inv) (hb : r.status.busy = true) :
    (raiseCmdError .cmdBusy r).Inv := by
  obtain ⟨hpend, hexcl, -, -, hcmdr, hlegal, hmatch⟩ := h
  exact ⟨by simpa using hpend, by simpa using hexcl, by simp, by simp [hb, CmdError.code], hcmdr,
    by simpa using hlegal, hmatch⟩

/-- `ILLEGAL_CMD`, which only an idle block raises, keeps the invariant (R202, R203). -/
theorem Regs.Inv.raise_illegalCmd {r : Regs} (h : r.Inv) (hb : r.status.busy = false) :
    (raiseCmdError .illegalCmd r).Inv := by
  obtain ⟨hpend, -, -, -, hcmdr, -, hmatch⟩ := h
  exact ⟨by simpa using hpend, by simp, by simp, by simp [hb, CmdError.code], hcmdr, by simp [hb], hmatch⟩

/-- Acceptance makes the invariant hold whatever was there before: it writes all three registers it speaks of (R201). -/
theorem Regs.inv_latchCommand (i : Instr) (r : Regs) : (latchCommand i r).Inv := by
  have hmatch : pendMatchesCmdr (latchCommand i r) = true := by simp [pendMatchesCmdr, pendingOf]
  exact ⟨by simp, by simp, by simp, by simp, by simp, by simp, hmatch⟩

/-- A completion keeps the invariant: `BUSY` and `PEND` go together, and `DONE` takes the place of `BUSY` (R205). -/
theorem Regs.Inv.engineTurn {r : Regs} (h : r.Inv) : (engineTurn r).Inv := by
  cases hp : r.pend with
  | none => rwa [engineTurn_none hp]
  | some p =>
    obtain ⟨hpend, hexcl, hnoerr, herr, hcmdr, hlegal, -⟩ := h
    have hb : r.status.busy = true := by simpa [hp] using hpend
    rw [engineTurn_some hp]
    refine ⟨by simp, by simp, by simpa using hnoerr, fun he => .inr ?_, hcmdr, fun _ => hlegal (.inl hb), rfl⟩
    obtain ⟨-, hidle, -⟩ | ⟨hcode, -⟩ := herr he
    · simp [hb] at hidle
    · exact ⟨hcode, .inr rfl⟩

/-- Every step keeps the invariant, because every one of the things a step can do keeps it. -/
theorem State.Inv.step {s t : State} (h : s.Inv) (hst : step s = .next t) : t.Inv := by
  obtain ⟨hregs, hreset⟩ := h
  have released {r : Regs} {b : Bool} (hb : b = false) : b = true → r = Regs.reset := by simp [hb]
  obtain ⟨rest, -, rfl | ⟨hr, sl, rfl⟩ | ⟨hr, sl, v, -, rfl⟩ | ⟨hr, hb, rfl⟩ | ⟨hr, hb, rfl⟩ | ⟨hr, -, i, rfl⟩ | rfl |
    rfl⟩ := step_cases hst
  · exact ⟨hregs.engineTurn, fun hr => by rw [hreset hr]; rfl⟩
  · exact ⟨hregs, released hr⟩
  · exact ⟨hregs.writeSlot sl v, released hr⟩
  · exact ⟨hregs.raise_cmdBusy hb, released hr⟩
  · exact ⟨hregs.raise_illegalCmd hb, released hr⟩
  · exact ⟨Regs.inv_latchCommand i s.regs, released hr⟩
  · exact ⟨Regs.inv_reset, fun _ => rfl⟩
  · exact ⟨hregs, released rfl⟩

/-- The `STATUS` fields the invariant admits: idle, busy or done, each with no rejection or with the one rejection that
can be recorded there (R25, R202). -/
theorem Regs.Inv.status_cases {r : Regs} (h : r.Inv) :
    r.status = ⟨false, false, false, 0⟩ ∨ r.status = ⟨true, false, false, 0⟩ ∨ r.status = ⟨false, true, false, 0⟩ ∨
    r.status = ⟨false, false, true, 1⟩ ∨ r.status = ⟨true, false, true, 2⟩ ∨ r.status = ⟨false, true, true, 2⟩ := by
  obtain ⟨-, hexcl, hnoerr, herr, -⟩ := h
  generalize r.status = st at hexcl hnoerr herr
  obtain ⟨busy, done, err, ecode⟩ := st
  cases err with
  | false =>
    obtain rfl : ecode = 0 := hnoerr rfl
    cases busy <;> cases done <;> simp at hexcl ⊢
  | true =>
    obtain ⟨rfl, rfl, rfl⟩ | ⟨rfl, hphase⟩ := herr rfl
    · simp
    · cases busy <;> cases done <;> simp at hexcl hphase ⊢

/-- Settles O45: `State.Inv.step`. -/
theorem everyStepKeepsTheInvariant : Obligations.EveryStepKeepsTheInvariant :=
  fun _ _ h hst => h.step hst

/-- Settles O44. -/
theorem invariantHoldsAfterReset : Obligations.InvariantHoldsAfterReset :=
  ⟨Regs.inv_reset, fun _ => rfl⟩

/-- Settles O22: the word of each of the six `STATUS` values the invariant admits is in the list. -/
theorem statusIsOneOfSixValues : Obligations.StatusIsOneOfSixValues := by
  intro r h
  obtain hs | hs | hs | hs | hs | hs := h.status_cases <;> rw [hs] <;> decide

end Sys2Proof.Machine
end

section
/-! PROOF. Noninterference of `K`: blanking `K` and a permutation's copy of it commutes with every operation but the ones
an input that shows `K` runs (R21). -/

namespace Sys2Proof.Machine

open Sys2Proof

/-- The state with `K` and a permutation's copy of it blanked out (R21). -/
def State.withoutK (s : State) : State := { s with regs := blankK s.regs }

/-- What a step answers, with `K` and a permutation's copy of it blanked out (R21). -/
def resultWithoutK : Result → Result
  | .next s => .next s.withoutK
  | .fault r => .fault r
  | .refused r => .refused r

/-- Two states agree on everything but `K` exactly when blanking `K` makes them equal. -/
theorem sameButK_iff (s t : State) : SameButK s t ↔ s.withoutK = t.withoutK := Iff.rfl

/-- Only an answer that is a next state has a next state as its blanked form. -/
theorem resultWithoutK_eq_next {a : Result} {u : State} (h : resultWithoutK a = .next u) :
    ∃ t, a = .next t ∧ t.withoutK = u := by
  cases a with
  | next t => exact ⟨t, rfl, by simpa [resultWithoutK] using h⟩
  | fault r => cases r
  | refused r => cases h

@[simp] theorem State.withoutK_inReset (s : State) : s.withoutK.inReset = s.inReset := rfl
@[simp] theorem State.withoutK_inputs (s : State) : s.withoutK.inputs = s.inputs := rfl
@[simp] theorem State.withoutK_regs (s : State) : s.withoutK.regs = blankK s.regs := rfl
@[simp] theorem blankK_status (r : Regs) : (blankK r).status = r.status := rfl

@[simp] theorem blankK_blankK (r : Regs) : blankK (blankK r) = blankK r := by
  cases hp : r.pend with
  | none => simp [blankK, hp]
  | some p => by_cases ho : p.op = .perm <;> simp [blankK, hp, ho]

@[simp] theorem State.withoutK_withoutK (s : State) : s.withoutK.withoutK = s.withoutK := by
  simp [State.withoutK]

/-- Whether an input shows `K` does not depend on `K`. -/
theorem Input.showsK_blankK (r : Regs) (i : Input) : i.showsK (blankK r) = i.showsK r := rfl

/-- A read of any register but `K` answers and draws the same without `K` (R21, R56). -/
theorem hostRead_withoutK {sl : Slot} (hk : ∀ q, sl ≠ .k q) (s : State) :
    (hostRead sl s.withoutK).withoutK = (hostRead sl s).withoutK := by
  have hread : ∀ draw, readSlot sl draw (blankK s.regs) = readSlot sl draw s.regs := by
    cases sl with
    | k q => exact absurd rfl (hk q)
    | _ => exact fun _ => rfl
  have hdraw : readIsDraw sl (blankK s.regs) = readIsDraw sl s.regs := rfl
  simp only [State.withoutK, hostRead, hread, hdraw, blankK_blankK]

/-- A write of `K` is invisible once `K` is blanked (R57). -/
theorem blankK_writeSlot_k (q : Fin 4) (v : Word) (r : Regs) : blankK (writeSlot (.k q) v r) = blankK r := rfl

/-- A write of any other register commutes with blanking `K` (R57). -/
theorem blankK_writeSlot_of_ne_k {sl : Slot} (hk : ∀ q, sl ≠ .k q) (v : Word) (r : Regs) :
    blankK (writeSlot sl v r) = writeSlot sl v (blankK r) := by
  cases sl with
  | k q => exact absurd rfl (hk q)
  | _ => rfl

/-- A write of any register but `CMD` brings nothing of `K` elsewhere (R57). -/
theorem blankK_writeSlot_blankK (sl : Slot) (v : Word) (r : Regs) :
    blankK (writeSlot sl v (blankK r)) = blankK (writeSlot sl v r) := by
  by_cases hk : ∃ q, sl = .k q
  · obtain ⟨q, rfl⟩ := hk
    rw [blankK_writeSlot_k, blankK_writeSlot_k, blankK_blankK]
  · have hk : ∀ q, sl ≠ .k q := fun q h => hk ⟨q, h⟩
    rw [blankK_writeSlot_of_ne_k hk, blankK_writeSlot_of_ne_k hk, blankK_blankK]

theorem blankK_raiseCmdError_blankK (e : CmdError) (r : Regs) :
    blankK (raiseCmdError e (blankK r)) = blankK (raiseCmdError e r) :=
  congrArg (raiseCmdError e) (blankK_blankK r)

/-- The acceptance of a permutation or compression command brings `K` nowhere but to its copy (R21, R201). -/
theorem blankK_latchCommand_blankK {i : Instr} (hi : i.op = .perm) (r : Regs) :
    blankK (latchCommand i (blankK r)) = blankK (latchCommand i r) := by
  simp [blankK, latchCommand, pendingOf, hi]

/-- Blanking a permutation's copy of `K` does not touch its result (R21). -/
theorem resultLanes_blankCopy (p : Pending) (out : Lanes) :
    resultLanes (if p.op = .perm then { p with kl := 0 } else p) out = resultLanes p out := by
  split
  · rename_i ho
    simp only [resultLanes, ho]
  · rfl

/-- The engine's turn brings `K` nowhere, since a pending `AESR` keeps its copy of `K` when `K` is blanked (R205). -/
theorem blankK_engineTurn_blankK (r : Regs) : blankK (engineTurn (blankK r)) = blankK (engineTurn r) := by
  cases hp : r.pend with
  | none => rw [engineTurn_none hp, engineTurn_none (by simp [blankK, hp]), blankK_blankK]
  | some p =>
    have hp' : (blankK r).pend = some (if p.op = .perm then { p with kl := 0 } else p) := by simp [blankK, hp]
    rw [engineTurn_some hp, engineTurn_some hp']
    simp only [completePending, blankK, resultLanes_blankCopy]

/-- Every command but `AESR` has the operation `PERM` (R72). -/
theorem Instr.op_eq_perm_of_ne {i : Instr} (h : i ≠ .aesr) : i.op = .perm := by
  cases i <;> first | rfl | exact absurd rfl h

/-- A write to `CMD` of any word but that of `AESR` brings `K` nowhere but to a permutation's copy of it (R201). -/
theorem commandWrite_withoutK {w : Word} (hw : decode w ≠ .command .aesr) (s : State) :
    resultWithoutK (commandWrite w s.withoutK) = resultWithoutK (commandWrite w s) := by
  obtain ⟨hb, he⟩ | ⟨hb, ⟨why, hd⟩, he⟩ | ⟨hb, i, hd, he⟩ := commandWrite_cases w s
  · rw [he, commandWrite_busy w (s := s.withoutK) hb]
    simp only [resultWithoutK, State.withoutK, blankK_raiseCmdError_blankK]
  · rw [he, commandWrite_illegal _ hd, presentIllegal_idle (s := s.withoutK) hb]
    simp only [resultWithoutK, State.withoutK, blankK_raiseCmdError_blankK]
  · have hi : i.op = .perm := Instr.op_eq_perm_of_ne fun h => hw (by rw [hd, h])
    rw [he, commandWrite_command _ hd, exec_eq_presentCommand, presentCommand_idle (s := s.withoutK) i hb]
    simp only [resultWithoutK, State.withoutK, blankK_latchCommand_blankK hi]

/-- A write that is no `AESR` command brings `K` nowhere but to a permutation's copy of it (R57). -/
theorem hostWrite_withoutK {sl : Slot} {w : Word} (hw : sl = .cmd → decode w ≠ .command .aesr) (s : State) :
    resultWithoutK (hostWrite sl w s.withoutK) = resultWithoutK (hostWrite sl w s) := by
  obtain ⟨rfl, -⟩ | ⟨hs, he⟩ := hostWrite_cases sl w s
  · exact commandWrite_withoutK (hw rfl) s
  · obtain ⟨h, -⟩ | ⟨-, he'⟩ := hostWrite_cases sl w s.withoutK
    · exact absurd h hs
    · rw [he, he']
      simp only [resultWithoutK, State.withoutK, blankK_writeSlot_blankK]

/-- An access that does not show `K` answers the same without it, refusals included. -/
theorem performAccess_withoutK {a : Access} {s : State} (h : (Input.access a).showsK s.regs = false) :
    resultWithoutK (performAccess a s.withoutK) = resultWithoutK (performAccess a s) := by
  unfold performAccess
  split
  · rename_i hr
    rw [if_pos (by simpa using hr)]
  · rename_i hr
    rw [if_neg (by simpa using hr)]
    split
    · rfl
    · split
      · rename_i hw
        refine congrArg Host.Outcome.next (hostRead_withoutK (fun q hq => ?_) s)
        simp [Input.showsK, hw, hq] at h
      · rename_i w hw
        refine hostWrite_withoutK (fun hc hd => ?_) s
        simp [Input.showsK, hw, hc, hd] at h

/-- A step whose input does not show `K` answers the same without it. -/
theorem step_withoutK {s : State} (h : ∀ i rest, s.inputs = i :: rest → i.showsK s.regs = false) :
    resultWithoutK (step s.withoutK) = resultWithoutK (step s) := by
  unfold step
  simp only [State.withoutK_inputs]
  have hturn := blankK_engineTurn_blankK s.regs
  split
  · rename_i i rest hi
    cases i with
    | access a => exact performAccess_withoutK (s := { s with inputs := rest }) (h _ _ hi)
    | engine => simp [takeInput, resultWithoutK, State.withoutK, hturn]
    | resetAsserted => rfl
    | resetReleased => simp [takeInput, resultWithoutK, State.withoutK]
  · simp [idleTurn, resultWithoutK, State.withoutK, hturn]

/-- Settles O46: both runs answer what the run with `K` blanked answers. -/
theorem kReachesOnlyTheAesRound : Obligations.KReachesOnlyTheAesRound := by
  intro s t s' hst hs hstep
  rw [sameButK_iff] at hst
  have hregs : blankK s.regs = blankK t.regs := by simpa using congrArg State.regs hst
  have hin : s.inputs = t.inputs := by simpa using congrArg State.inputs hst
  have ht : ∀ i rest, t.inputs = i :: rest → i.showsK t.regs = false := by
    intro i rest hi
    rw [← Input.showsK_blankK, ← hregs, Input.showsK_blankK]
    exact hs i rest (hin.trans hi)
  have hsame : resultWithoutK (step t) = .next s'.withoutK := by
    rw [← step_withoutK ht, ← hst, step_withoutK hs, hstep, resultWithoutK]
  obtain ⟨t', ht', heq⟩ := resultWithoutK_eq_next hsame
  exact ⟨t', ht', heq.symm⟩

end Sys2Proof.Machine
end

section
/-! PROOF. Frames and operand dependence: what presenting a command, the engine's turn and the accesses to a busy block
leave unchanged, and which operands a result is a function of (R21 to R23, R201, R205, R237). -/

namespace Sys2Proof.Machine

open Sys2Proof

/-- The 256-bit compression reads `X[0]` and `X[1]`, in its feed-forward as in its permutation (R124, R142). -/
theorem compress256_congr (c : RoundParams) (ff : FeedForward) {x y : Lanes} (h0 : x.x0 = y.x0) (h1 : x.x1 = y.x1) :
    compress256 c ff x = compress256 c ff y := by
  have hmask0 : ffMask .w256 ff x 0 = ffMask .w256 ff y 0 := by cases ff <;> simp [ffMask, laneAt, h0]
  have hmask1 : ffMask .w256 ff x 1 = ffMask .w256 ff y 1 := by cases ff <;> simp [ffMask, laneAt, h1]
  simp only [compress256, h0, h1, hmask0, hmask1]

theorem resultLanes_aesr {p : Pending} (ho : p.op = .aesr) (out : Lanes) :
    resultLanes p out = { out with x0 := aesRound p.x.x0 p.kl } := by
  simp only [resultLanes, ho]

theorem resultLanes_perm256 {p : Pending} (ho : p.op = .perm) (hw : p.width = .w256) (out : Lanes) :
    resultLanes p out =
      { out with x0 := (compress256 Config.build p.ff p.x).x0, x1 := (compress256 Config.build p.ff p.x).x1 } := by
  simp only [resultLanes, ho, hw]

theorem resultLanes_perm512 {p : Pending} (ho : p.op = .perm) (hw : p.width = .w512) (out : Lanes) :
    resultLanes p out = compress512 Config.build p.ff p.x := by
  simp only [resultLanes, ho, hw]

/-- Only a 512-bit permutation or compression command writes `OUT[2]` and `OUT[3]` (R205). -/
theorem resultLanes_upper {p : Pending} (h : p.op = .aesr ∨ p.width = .w256) (out : Lanes) :
    (resultLanes p out).x2 = out.x2 ∧ (resultLanes p out).x3 = out.x3 := by
  cases ho : p.op with
  | aesr => simp [resultLanes_aesr ho]
  | perm => simp [resultLanes_perm256 ho (by simpa [ho] using h)]

/-- What the engine's turn writes when a command is pending (R205). -/
theorem engineTurn_outs {r : Regs} {p : Pending} (h : r.pend = some p) :
    (engineTurn r).outs = resultLanes p r.outs := by
  rw [engineTurn_some h, completePending_outs]

@[simp] theorem engineTurn_err (r : Regs) : (engineTurn r).status.err = r.status.err := by
  cases h : r.pend with
  | none => rw [engineTurn_none h]
  | some p => simp [engineTurn_some h]

@[simp] theorem engineTurn_ecode (r : Regs) : (engineTurn r).status.ecode = r.status.ecode := by
  cases h : r.pend with
  | none => rw [engineTurn_none h]
  | some p => simp [engineTurn_some h]

/-- A defined access to a block with a command in flight: the port answers, and `PEND`, `BUSY`, `CMDR`, `OUT` and the
inputs to come stay as they are (R237). -/
theorem performAccess_inFlight {a : Access} {s : State} (ha : a.wellFormed = true) (hr : s.inReset = false)
    (hb : s.regs.status.busy = true) :
    ∃ t, performAccess a s = .next t ∧ t.inReset = false ∧ t.inputs = s.inputs ∧ t.regs.pend = s.regs.pend ∧
      t.regs.status.busy = true ∧ t.regs.cmdr = s.regs.cmdr ∧ t.regs.outs = s.regs.outs := by
  have hd : a.defect = none := by simpa [Access.wellFormed] using ha
  cases hw : a.write with
  | none => exact ⟨_, performAccess_read hr hd hw, hr, rfl, rfl, hb, rfl, rfl⟩
  | some v =>
    rw [performAccess_write hr hd hw]
    obtain ⟨-, he⟩ | ⟨-, he⟩ := hostWrite_cases (slotAt a.offset) v s
    · exact ⟨_, he.trans (commandWrite_busy v hb), hr, rfl, rfl, hb, rfl, rfl⟩
    · exact ⟨_, he, hr, rfl, by simp, by simpa using hb, by simp, by simp⟩

/-- Any number of defined accesses to a block with a command in flight (R237). -/
theorem runSteps_inFlight (accesses : List Access) {s : State} {rest : List Input}
    (ha : ∀ a ∈ accesses, a.wellFormed = true) (hr : s.inReset = false) (hb : s.regs.status.busy = true)
    (hi : s.inputs = accesses.map Input.access ++ rest) :
    ∃ t, runSteps accesses.length s = .next t ∧ t.inReset = false ∧ t.inputs = rest ∧ t.regs.pend = s.regs.pend ∧
      t.regs.status.busy = true ∧ t.regs.cmdr = s.regs.cmdr ∧ t.regs.outs = s.regs.outs := by
  induction accesses generalizing s with
  | nil => exact ⟨s, rfl, hr, hi, rfl, hb, rfl, rfl⟩
  | cons a as ih =>
    obtain ⟨ha, has⟩ := List.forall_mem_cons.1 ha
    obtain ⟨u, hu, hur, hui, hup, hub, huc, huo⟩ :=
      performAccess_inFlight (s := { s with inputs := as.map Input.access ++ rest }) ha hr hb
    have hstep : step s = .next u := by
      unfold step
      rw [hi]
      exact hu
    obtain ⟨t, ht, htr, hti, htp, htb, htc, hto⟩ := ih has hur hub hui
    exact ⟨t, (runSteps_succ _ hstep).trans ht, htr, hti, htp.trans hup, htb, htc.trans huc, hto.trans huo⟩

/-- Settles O17: acceptance and `CMD_BUSY` both write `CMDR`, `STATUS` and `PEND` at most. -/
theorem commandPresentationFrame : Obligations.CommandPresentationFrame := by
  intro i s t h
  rw [exec_eq_presentCommand] at h
  cases hb : s.regs.status.busy with
  | true =>
    rw [presentCommand_busy i hb] at h
    cases h
    exact ⟨rfl, rfl, rfl, rfl, rfl, rfl, rfl, fun _ => ⟨rfl, rfl, hb, rfl⟩,
      fun o draw h4 h8 ho => readSlot_slotAt_congr draw ho h8 rfl rfl fun h => absurd h h4⟩
  | false =>
    rw [presentCommand_idle i hb] at h
    cases h
    exact ⟨rfl, rfl, rfl, rfl, rfl, rfl, rfl, nofun,
      fun o draw h4 h8 ho => readSlot_slotAt_congr draw ho h8 rfl rfl fun h => absurd h h4⟩

/-- Settles O19. -/
theorem completionFrame : Obligations.CompletionFrame := by
  intro s rest h
  refine ⟨_, step_engine h, by simp, by simp, by simp, by simp, by simp, rfl, rfl, rfl, rfl, fun p hp => ?_,
    fun o draw h8 ho => readSlot_slotAt_congr draw ho h8 (by simp) (by simp) (by simp)⟩
  rw [engineTurn_outs hp]
  exact ⟨fun ho => by rw [resultLanes_aesr ho], fun hw => resultLanes_upper hw s.regs.outs⟩

/-- Settles O20: `resultLanes` for each kind of command is a function of the operands named. -/
theorem resultReadsOnlyTheOperandsOfItsCommand : Obligations.ResultReadsOnlyTheOperandsOfItsCommand := by
  intro p p' r r' hp hp' hout hop hwidth hff
  rw [engineTurn_outs hp, engineTurn_outs hp', hout]
  refine ⟨fun ho hx hkl => ?_, fun ho hw h0 h1 => ?_, fun ho hw hx => ?_⟩
  · rw [resultLanes_aesr ho, resultLanes_aesr (hop ▸ ho), hx, hkl]
  · rw [resultLanes_perm256 ho hw, resultLanes_perm256 (hop ▸ ho) (hwidth ▸ hw), hff, compress256_congr _ _ h0 h1]
  · rw [resultLanes_perm512 ho hw, resultLanes_perm512 (hop ▸ ho) (hwidth ▸ hw), hff, hx]

/-- Settles O43, by `runSteps_inFlight`. -/
theorem accessesDoNotDisturbTheCommandInFlight : Obligations.AccessesDoNotDisturbTheCommandInFlight := by
  intro accesses s p rest hr hb hp ha hi
  obtain ⟨t, ht, htr, hti, htp, htb, htc, hto⟩ := runSteps_inFlight accesses ha hr hb hi
  have htp : t.regs.pend = some p := htp.trans hp
  exact ⟨t, ht, hti, htr, htp, htb, htc, hto, by rw [engineTurn_outs htp, hto]⟩

/-- Settles O7: the port hands a decodable word to `exec`, and a table word stands at the port. -/
theorem stepRunsTheDecodedCommand : Obligations.StepRunsTheDecodedCommand := by
  refine ⟨fun s rest w i hport hd _ => ?_, fun s nbits w i hd => ?_⟩
  · rw [step_commandWrite hport, commandWrite_command _ hd]
  · have hport : AtPort (s.withFetchWord nbits w) (.wr32 0x04 (tableWord nbits w)) s.inputs := ⟨rfl, rfl⟩
    rw [step_commandWrite hport, commandWrite_command _ (decode_tableWord hd)]
    rfl

/-- Settles O21: each field read off `Status.getLsbD_word`. -/
theorem statusWordLayout : Obligations.StatusWordLayout := by
  intro s
  refine ⟨s.getLsbD_word 0, s.getLsbD_word 1, s.getLsbD_word 2, s.getLsbD_word 3, ?_, ?_⟩
  · refine BitVec.eq_of_getLsbD_eq fun j hj => ?_
    rw [BitVec.getLsbD_extractLsb', Nat.add_comm, s.getLsbD_word_add_four, decide_eq_true hj, Bool.true_and]
  · refine BitVec.eq_of_getLsbD_eq fun j hj => ?_
    rw [BitVec.getLsbD_extractLsb', show 8 + j = (4 + j) + 4 by omega, s.getLsbD_word_add_four,
      BitVec.getLsbD_of_ge _ _ (by omega)]
    simp

/-- Settles O47. -/
theorem resetValues : Obligations.ResetValues :=
  ⟨rfl, by decide, fun _ => rfl⟩

end Sys2Proof.Machine
end

section
/-! PROOF. Rules about the registers of the window that the statements of 20_memory.md use: the window map offset by
offset, which words a write changes, and when a read is a draw (R51, R55 to R58). -/

namespace Sys2Proof.Machine

open Sys2Proof

/-- The words of `K` (R51). -/
theorem slotAt_k (q : Fin 4) : slotAt (0x10 + 4 * q.val) = .k q := by revert q; decide

/-- The four words of `K` at the offsets `0x10` to `0x1C` (R51, R55). -/
theorem slotAt_k_words :
    slotAt 0x10 = .k 0 ∧ slotAt 0x14 = .k 1 ∧ slotAt 0x18 = .k 2 ∧ slotAt 0x1C = .k 3 := by decide

/-- The words of `IN[i]` (R51). -/
theorem slotAt_input (i q : Fin 4) : slotAt (0x20 + 16 * i.val + 4 * q.val) = .input i q := by revert i q; decide

/-- The four words of `IN[i]` at the offsets `0x20 + 16i` to `0x2C + 16i` (R51, R55). -/
theorem slotAt_input_words (i : Fin 4) :
    slotAt (0x20 + 16 * i.val) = .input i 0 ∧ slotAt (0x24 + 16 * i.val) = .input i 1 ∧
      slotAt (0x28 + 16 * i.val) = .input i 2 ∧ slotAt (0x2C + 16 * i.val) = .input i 3 := by
  revert i; decide

/-- The words of `OUT[i]` (R51). -/
theorem slotAt_output (i q : Fin 4) : slotAt (0x60 + 16 * i.val + 4 * q.val) = .output i q := by revert i q; decide

/-- The reserved offsets (R51, R58). -/
theorem slotAt_reserved {o : Nat} (h : o = 0x0C ∨ 0xA0 ≤ o) : slotAt o = .reserved := by
  obtain rfl | h := h
  · rfl
  · unfold slotAt
    repeat rw [if_neg (by omega)]

/-- The only aligned offset of the word `q` of `K` (R51, R55). -/
theorem slotAt_eq_k_iff {o : Nat} (h4 : o % 4 = 0) (q : Fin 4) : slotAt o = .k q ↔ o = 0x10 + 4 * q.val := by
  refine ⟨fun h => ?_, fun h => h ▸ slotAt_k q⟩
  unfold slotAt at h
  split_ifs at h
  obtain rfl := Slot.k.inj h
  simp only [wordIndex, Fin.ofNat]
  omega

/-- The only aligned offset of the word `q` of `IN[i]` (R51, R55). -/
theorem slotAt_eq_input_iff {o : Nat} (h4 : o % 4 = 0) (i q : Fin 4) :
    slotAt o = .input i q ↔ o = 0x20 + 16 * i.val + 4 * q.val := by
  refine ⟨fun h => ?_, fun h => h ▸ slotAt_input i q⟩
  unfold slotAt at h
  split_ifs at h
  obtain ⟨rfl, rfl⟩ := Slot.input.inj h
  simp only [laneIndex, wordIndex, Fin.ofNat]
  omega

/-- A word of a lane after a write of one of its words (R57). -/
theorem laneWord_setLaneWord (x : Lane) (q p : Fin 4) (v : Word) :
    laneWord (setLaneWord x q v) p = if p = q then v else laneWord x p := by
  split
  · next h => rw [h, laneWord_setLaneWord_same]
  · next h => exact laneWord_setLaneWord_other x v h

@[simp] theorem setLane_setLane (r : Lanes) (i : Fin 4) (x y : Lane) : setLane (setLane r i x) i y = setLane r i y := by
  fin_cases i <;> rfl

@[simp] theorem setLaneWord_setLaneWord (x : Lane) (q : Fin 4) (v w : Word) :
    setLaneWord (setLaneWord x q v) q w = setLaneWord x q w := by
  fin_cases q <;> simp [setLaneWord]

/-- A lane all of whose words have been written is made of what was written (R55, R57). -/
theorem setLaneWord_all (x : Lane) (t0 t1 t2 t3 : Word) :
    setLaneWord (setLaneWord (setLaneWord (setLaneWord x 0 t0) 1 t1) 2 t2) 3 t3 = laneOfWords t0 t1 t2 t3 := by
  simp [setLaneWord]

/-- Byte `j` of the stored lane is lane byte `j` (R54). -/
theorem storeLane_getD (v : Lane) {j : Nat} (hj : j < 16) : (storeLane v).getD j 0 = laneByte v j := by
  simp [storeLane, List.getD, hj]

/-- The words of `K` after a write to any register but `CMD` (R57). -/
theorem laneWord_writeSlot_k (sl : Slot) (v : Word) (r : Regs) (p : Fin 4) :
    laneWord (writeSlot sl v r).k p = if sl = .k p then v else laneWord r.k p := by
  cases sl with
  | k q => simp [writeSlot, laneWord_setLaneWord, eq_comm]
  | _ => rfl

/-- The words of `IN` after a write to any register but `CMD` (R57). -/
theorem laneWord_writeSlot_ins (sl : Slot) (v : Word) (r : Regs) (j p : Fin 4) :
    laneWord (laneAt (writeSlot sl v r).ins j) p = if sl = .input j p then v else laneWord (laneAt r.ins j) p := by
  cases sl with
  | input i q =>
    by_cases hj : j = i
    · subst hj
      simp [writeSlot, laneWord_setLaneWord, eq_comm]
    · simp [writeSlot, laneAt_setLane_other _ _ hj, Ne.symm hj]
  | _ => rfl

/-- Four writes to the words of `K` leave the lane made of the four words (R55). -/
theorem writeSlot_k_all (r : Regs) (t0 t1 t2 t3 : Word) :
    writeSlot (.k 3) t3 (writeSlot (.k 2) t2 (writeSlot (.k 1) t1 (writeSlot (.k 0) t0 r))) =
      { r with k := laneOfWords t0 t1 t2 t3 } := by
  simp only [writeSlot, setLaneWord_all]

/-- Four writes to the words of `IN[i]` leave the lane made of the four words (R55). -/
theorem writeSlot_input_all (r : Regs) (i : Fin 4) (t0 t1 t2 t3 : Word) :
    writeSlot (.input i 3) t3 (writeSlot (.input i 2) t2 (writeSlot (.input i 1) t1 (writeSlot (.input i 0) t0 r))) =
      { r with ins := setLane r.ins i (laneOfWords t0 t1 t2 t3) } := by
  simp only [writeSlot, laneAt_setLane_same, setLane_setLane, setLaneWord_all]

/-- Writing the same word again changes nothing more (R59). -/
theorem writeSlot_writeSlot (sl : Slot) (v : Word) (r : Regs) :
    writeSlot sl v (writeSlot sl v r) = writeSlot sl v r := by
  cases sl <;> simp [writeSlot]

/-- A write outside `CMD`, `K` and `IN` is ignored (R57). -/
theorem writeSlot_ignored {o : Nat} (h : o = 0x00 ∨ o = 0x08 ∨ o = 0x0C ∨ 0x60 ≤ o) (v : Word) (r : Regs) :
    writeSlot (slotAt o) v r = r := by
  obtain rfl | rfl | rfl | h := h
  · rfl
  · rfl
  · rfl
  · by_cases hr : 0xA0 ≤ o
    · rw [slotAt_reserved (.inr hr)]
      rfl
    · have hout : (slotAt o).isOutput = true := (slotAt_isOutput_iff o).2 ⟨h, by omega⟩
      cases hs : slotAt o with
      | output i q => rfl
      | _ => simp [hs, Slot.isOutput] at hout

/-- A read is a draw exactly at the words of `OUT` while a command is in flight (R56). -/
theorem readIsDraw_slotAt_iff (o : Nat) (r : Regs) :
    readIsDraw (slotAt o) r = true ↔ (0x60 ≤ o ∧ o < 0xA0) ∧ r.status.busy = true := by
  rw [readIsDraw, Bool.and_eq_true, slotAt_isOutput_iff]

/-- Outside `OUT`, and anywhere while no command is in flight, a read is no draw (R56). -/
theorem readIsDraw_slotAt_eq_false {o : Nat} {r : Regs} (h : o < 0x60 ∨ 0xA0 ≤ o ∨ r.status.busy = false) :
    readIsDraw (slotAt o) r = false := by
  rw [Bool.eq_false_iff, Ne, readIsDraw_slotAt_iff]
  rintro ⟨⟨hlo, hhi⟩, hb⟩
  obtain h | h | h := h
  · omega
  · omega
  · simp [hb] at h

theorem readSlot_output_idle {r : Regs} (hb : r.status.busy = false) (i q : Fin 4) (draw : Word) :
    readSlot (.output i q) draw r = laneWord (laneAt r.outs i) q := by
  simp [readSlot, hb]

/-- A read that is a draw returns the free value (R56). -/
theorem readSlot_draw {sl : Slot} {r : Regs} (h : readIsDraw sl r = true) (draw : Word) :
    readSlot sl draw r = draw := by
  obtain ⟨ho, hb⟩ := (Bool.and_eq_true ..).mp h
  cases sl with
  | output i q => exact if_pos hb
  | _ => cases ho

end Sys2Proof.Machine
end

section
/-! PROOF. What a step does at the port, access by access: a read, a write, a command word, a refusal (R53, R56, R57,
R201, R231); and where the window lies (R50). -/

namespace Sys2Proof.Machine

open Sys2Proof

/-- The step of a read that is a draw: it returns the next free value and uses it up (R56). -/
theorem step_read_draw {s : State} {o : Nat} {rest : List Input} (h : AtPort s (.rd32 o) rest) (h4 : o % 4 = 0)
    (hl : o ≤ 0xFC) (hd : readIsDraw (slotAt o) s.regs = true) :
    step s = .next { s with
      inputs := rest, replies := Config.freeWord s.draws :: s.replies, draws := s.draws + 1 } := by
  rw [step_read h h4 hl]
  simp only [hostRead, readSlot_draw hd, hd, if_true]

/-- The step of a read that is no draw: it uses up no free value (R56). -/
theorem step_read_no_draw {s : State} {o : Nat} {rest : List Input} (h : AtPort s (.rd32 o) rest) (h4 : o % 4 = 0)
    (hl : o ≤ 0xFC) (hd : readIsDraw (slotAt o) s.regs = false) :
    step s = .next { s with
      inputs := rest, replies := readSlot (slotAt o) (Config.freeWord s.draws) s.regs :: s.replies } := by
  rw [step_read h h4 hl]
  simp [hostRead, hd]

/-- The step of a write anywhere but at `CMD` (R57). -/
theorem step_writeSlot {s : State} {o : Nat} {v : Word} {rest : List Input} (h : AtPort s (.wr32 o v) rest)
    (h4 : o % 4 = 0) (hl : o ≤ 0xFC) (hc : o ≠ 0x04) :
    step s = .next { s with inputs := rest, regs := writeSlot (slotAt o) v s.regs } := by
  obtain ⟨hs, -⟩ | ⟨-, he⟩ := hostWrite_cases (slotAt o) v { s with inputs := rest }
  · exact absurd ((slotAt_eq_cmd_iff o).1 hs) hc
  · rw [step_write h h4 hl, he]

/-- The step of a write of a command's word to `CMD` while no command is in flight (R201). -/
theorem step_command_idle {s : State} {w : Word} {i : Instr} {rest : List Input} (h : AtPort s (.wr32 0x04 w) rest)
    (hi : decode w = .command i) (hb : s.regs.status.busy = false) :
    step s = .next { s with inputs := rest, regs := latchCommand i s.regs } := by
  rw [step_commandWrite h, commandWrite_command _ hi, exec_eq_presentCommand]
  exact presentCommand_idle (s := { s with inputs := rest }) i hb

/-- The step of a write of any word to `CMD` while a command is in flight (R201). -/
theorem step_command_busy {s : State} {w : Word} {rest : List Input} (h : AtPort s (.wr32 0x04 w) rest)
    (hb : s.regs.status.busy = true) :
    step s = .next { s with inputs := rest, regs := raiseCmdError .cmdBusy s.regs } := by
  rw [step_commandWrite h]
  exact commandWrite_busy (s := { s with inputs := rest }) w hb

/-- Every write of the port leads to a next state (R200). -/
theorem hostWrite_eq_next (sl : Slot) (v : Word) (s : State) : ∃ t, hostWrite sl v s = .next t := by
  obtain ⟨-, he⟩ | ⟨-, he⟩ := hostWrite_cases sl v s
  · obtain ⟨-, hc⟩ | ⟨-, -, hc⟩ | ⟨-, i, -, hc⟩ := commandWrite_cases v s <;> exact ⟨_, he.trans hc⟩
  · exact ⟨_, he⟩

/-- A defined access with reset released leads to a next state (R52). -/
theorem performAccess_defined {a : Access} {s : State} (hr : s.inReset = false) (hd : a.defect = none) :
    ∃ t, performAccess a s = .next t := by
  cases hw : a.write with
  | none => exact ⟨_, performAccess_read hr hd hw⟩
  | some v => exact performAccess_write hr hd hw ▸ hostWrite_eq_next _ _ _

/-- An access during reset, or one the block does not define, is refused, for a reason of the spec's (R53, R231). -/
theorem performAccess_undefined {a : Access} {s : State} (h : s.inReset = true ∨ a.defect ≠ none) :
    ∃ r, performAccess a s = .refused r ∧ ∀ m, r ≠ .notModelled m := by
  unfold performAccess
  split
  · exact ⟨_, rfl, nofun⟩
  · next hr =>
    cases hd : a.defect with
    | none => simp [hr, hd] at h
    | some d => exact ⟨_, rfl, by cases d <;> exact nofun⟩

/-- An access has a defect when its width, its alignment or its place is outside what R52 defines (R53). -/
theorem defect_ne_none_iff (a : Access) : a.defect ≠ none ↔ a.bytes ≠ 4 ∨ a.offset % 4 ≠ 0 ∨ 0xFC < a.offset := by
  rw [Ne, defect_eq_none_iff]
  omega

/-- A step whose input is neither an access during reset nor an undefined access leads to a next state (R200). -/
theorem step_defined {s : State}
    (h : ¬∃ a rest, s.inputs = .access a :: rest ∧ (s.inReset = true ∨ a.defect ≠ none)) : ∃ t, step s = .next t := by
  unfold step
  split
  · next i rest hi =>
    cases i with
    | access a =>
      have ha : ¬(s.inReset = true ∨ a.defect ≠ none) := fun ha => h ⟨a, rest, hi, ha⟩
      rw [not_or, not_not, Bool.not_eq_true] at ha
      exact performAccess_defined ha.1 ha.2
    | _ => exact ⟨_, rfl⟩
  · exact ⟨_, rfl⟩

/-- A step whose input is an access during reset or an undefined access is refused, for a reason of the spec's (R53,
R231). -/
theorem step_undefined {s : State} {a : Access} {rest : List Input} (hi : s.inputs = .access a :: rest)
    (h : s.inReset = true ∨ a.defect ≠ none) : ∃ r, step s = .refused r ∧ ∀ m, r ≠ .notModelled m := by
  unfold step
  rw [hi]
  exact performAccess_undefined h

/-- The steps of any number of writes anywhere but at `CMD` (R57). -/
theorem runSteps_writeSlots (writes : List (Nat × Word)) {s : State} {rest : List Input}
    (hw : ∀ w ∈ writes, w.1 % 4 = 0 ∧ w.1 ≤ 0xFC ∧ w.1 ≠ 0x04) (hr : s.inReset = false)
    (hi : s.inputs = writes.map (fun w => .access (.wr32 w.1 w.2)) ++ rest) :
    runSteps writes.length s =
      .next { s with inputs := rest, regs := writes.foldl (fun r w => writeSlot (slotAt w.1) w.2 r) s.regs } := by
  induction writes generalizing s with
  | nil =>
    obtain rfl : s.inputs = rest := hi
    rfl
  | cons w ws ih =>
    obtain ⟨⟨h4, hl, hc⟩, hws⟩ := List.forall_mem_cons.1 hw
    rw [List.length_cons, runSteps_succ _ (step_writeSlot ⟨hr, hi⟩ h4 hl hc)]
    exact ih hws hr rfl

/-- Four writes to the words of `K` (R55). -/
theorem runSteps_write_k {s : State} {t0 t1 t2 t3 : Word} {rest : List Input} (hr : s.inReset = false)
    (hi : s.inputs = .access (.wr32 0x10 t0) :: .access (.wr32 0x14 t1) :: .access (.wr32 0x18 t2) ::
      .access (.wr32 0x1C t3) :: rest) :
    runSteps 4 s = .next { s with inputs := rest, regs := { s.regs with k := laneOfWords t0 t1 t2 t3 } } := by
  obtain ⟨h0, h1, h2, h3⟩ := slotAt_k_words
  refine (runSteps_writeSlots [(0x10, t0), (0x14, t1), (0x18, t2), (0x1C, t3)] (by simp) hr hi).trans ?_
  simp only [List.foldl_cons, List.foldl_nil, h0, h1, h2, h3, writeSlot_k_all]

/-- Four writes to the words of `IN[i]` (R55). -/
theorem runSteps_write_input {s : State} {t0 t1 t2 t3 : Word} {rest : List Input} (i : Fin 4) (hr : s.inReset = false)
    (hi : s.inputs = .access (.wr32 (0x20 + 16 * i.val) t0) :: .access (.wr32 (0x24 + 16 * i.val) t1) ::
      .access (.wr32 (0x28 + 16 * i.val) t2) :: .access (.wr32 (0x2C + 16 * i.val) t3) :: rest) :
    runSteps 4 s = .next { s with
      inputs := rest, regs := { s.regs with ins := setLane s.regs.ins i (laneOfWords t0 t1 t2 t3) } } := by
  obtain ⟨h0, h1, h2, h3⟩ := slotAt_input_words i
  refine (runSteps_writeSlots [(0x20 + 16 * i.val, t0), (0x24 + 16 * i.val, t1), (0x28 + 16 * i.val, t2),
    (0x2C + 16 * i.val, t3)] (by simp; omega) hr hi).trans ?_
  simp only [List.foldl_cons, List.foldl_nil, h0, h1, h2, h3, writeSlot_input_all]

/-- An address inside the window at `ARE_BASE` (R50). -/
theorem windowAccess_inside {o : Nat} (h : o < 0x100) (bytes : Nat) (w : Option Word) :
    windowAccess (Config.areBase + o) bytes w = some { offset := o, bytes := bytes, write := w } := by
  simp [windowAccess, h]

/-- An address outside the window at `ARE_BASE` (R50, R51). -/
theorem windowAccess_outside {addr : Nat} (h : addr < Config.areBase ∨ Config.areBase + 0x100 ≤ addr) (bytes : Nat)
    (w : Option Word) : windowAccess addr bytes w = none :=
  if_neg (by omega)

end Sys2Proof.Machine
end

section
/-! PROOF. The decoder reads a command from its word and from no other (R72, R73). -/

namespace Sys2Proof.Machine

open Sys2Proof

/-- A word is made of its fields (R70). -/
theorem word_fieldsOf (w : Word) : (fieldsOf w).word = w := by
  unfold fieldsOf Fields.word
  rw [BitVec.extractLsb'_append_extractLsb'_eq_extractLsb' (by rfl),
    BitVec.extractLsb'_append_extractLsb'_eq_extractLsb' (by rfl),
    BitVec.extractLsb'_append_extractLsb'_eq_extractLsb' (by rfl)]
  simp

/-- The `W` and `FF` fields from which `decodePerm` reads a command are those of that command (R72). -/
theorem fields_of_decodePerm {w : BitVec 1} {ff : BitVec 2} {i : Instr} (h : decodePerm w ff = .command i) :
    i.fields = { opc := 0x2#4, w := w, ff := ff, rsv := 0 } := by
  cases i <;> revert w ff <;> decide

/-- Every `FF` value other than `11` names a command at each width (R70, R73). -/
theorem decodePerm_of_ne (w : BitVec 1) {ff : BitVec 2} (h : ff ≠ 0b11#2) : ∃ i, decodePerm w ff = .command i := by
  obtain rfl | rfl | rfl : ff = 0b00#2 ∨ ff = 0b01#2 ∨ ff = 0b10#2 := by revert ff; decide
  · exact ⟨if w = 0 then .perm256 else .perm512, rfl⟩
  · exact ⟨if w = 0 then .dm256 else .dm512, rfl⟩
  · exact ⟨if w = 0 then .mmo256 else .mmo512, rfl⟩

/-- Fields that decode to a command are the fields of that command (R72). -/
theorem fields_of_decodeFields {f : Fields} {i : Instr} (h : decodeFields f = .command i) : i.fields = f := by
  obtain ⟨opc, w, ff, rsv⟩ := f
  unfold decodeFields at h
  split_ifs at h with hrsv haesr hfields hperm
  · obtain rfl := not_not.1 hrsv
    obtain ⟨rfl, rfl⟩ := hfields
    obtain rfl : opc = 0x1#4 := haesr
    obtain rfl := Decoded.command.inj h
    rfl
  · obtain rfl := not_not.1 hrsv
    obtain rfl : opc = 0x2#4 := hperm
    exact fields_of_decodePerm h

/-- The only word from which the decoder reads a command is that command's own (R72). -/
theorem eq_encode_of_decode {w : Word} {i : Instr} (h : decode w = .command i) : w = encode i := by
  rw [encode, fields_of_decodeFields h, word_fieldsOf]

/-- The decoder reads a command from every legal word (R73). -/
theorem decode_of_legal {w : Word} (h : legal w = true) : ∃ i, decode w = .command i := by
  simp only [legal, Bool.or_eq_true, Bool.and_eq_true, beq_iff_eq, bne_iff_ne] at h
  obtain rfl | ⟨⟨hrsv, hopc⟩, hff⟩ := h
  · exact ⟨.aesr, rfl⟩
  · obtain ⟨i, hi⟩ := decodePerm_of_ne (fieldsOf w).w hff
    exact ⟨i, by simpa [decode, decodeFields, hrsv, hopc] using hi⟩

/-- The decoder on the bytes of a word with others after them (R55). -/
theorem decodeBytes_bytesOfWord_append (w : Word) (rest : List Byte) :
    decodeBytes (bytesOfWord w ++ rest) = (decode w, rest) :=
  congrArg (·.1, rest) (decodeBytes_bytesOfWord w)

/-- A byte sequence from which the decoder reads a command starts with the bytes of a word that decodes to it (R55). -/
theorem decodeBytes_eq_command {bs rest : List Byte} {i : Instr} (h : decodeBytes bs = (.command i, rest)) :
    ∃ w, bs = bytesOfWord w ++ rest ∧ decode w = .command i := by
  unfold decodeBytes at h
  split at h
  · next b0 b1 b2 b3 rest' =>
    obtain ⟨hd, rfl⟩ := Prod.mk.inj h
    exact ⟨wordOfBytes b0 b1 b2 b3, by rw [bytesOfWord_wordOfBytes]; rfl, hd⟩
  · cases h

end Sys2Proof.Machine
end

section
/-! PROOF. The statements about the register window (20_memory.md). -/

namespace Sys2Proof.Machine

open Sys2Proof

/-- Settles O3: a word is made of its bytes, and only the word of a command decodes to it. -/
theorem byteDecoderInvertsTheEncoder : Obligations.ByteDecoderInvertsTheEncoder := by
  refine ⟨fun i rest _ => ?_, fun bs rest i h => ?_⟩
  · rw [decodeBytes_bytesOfWord_append, decode_encode]
  · obtain ⟨w, rfl, hw⟩ := decodeBytes_eq_command h
    rw [eq_encode_of_decode hw]

/-- Settles O23: the read is `hostRead` of the slot at the offset, whose value the window map gives. -/
theorem readReturnsTheRegister : Obligations.ReadReturnsTheRegister := by
  intro s rest o hport h4 hl
  refine ⟨_, _, step_read hport h4 hl, ?_, ?_, ?_, fun q ho => ?_, fun i q ho => ?_, fun i q ho hb => ?_, fun ho => ?_⟩
  · rintro rfl
    rfl
  · rintro rfl
    rfl
  · rintro rfl
    rfl
  · rw [ho, slotAt_k]
    rfl
  · rw [ho, slotAt_input]
    rfl
  · rw [ho, slotAt_output]
    exact readSlot_output_idle hb i q _
  · rw [slotAt_reserved ho]
    rfl

/-- Settles O25: the write is `CommandWrite` or `writeSlot` of the slot at the offset. -/
theorem writeChangesOnlyTheAddressedWord : Obligations.WriteChangesOnlyTheAddressedWord := by
  intro s rest o v hport h4 hl
  refine ⟨?_, fun q ho => ?_, fun i q ho => ?_, fun ho => ?_⟩
  · rintro rfl
    exact step_commandWrite hport
  · refine ⟨setLaneWord s.regs.k q v, ?_, fun p => laneWord_setLaneWord s.regs.k q p v⟩
    rw [step_writeSlot hport h4 hl (by omega), ho, slotAt_k]
    rfl
  · refine ⟨setLane s.regs.ins i (setLaneWord (laneAt s.regs.ins i) q v), ?_, fun j p => ?_⟩
    · rw [step_writeSlot hport h4 hl (by omega), ho, slotAt_input]
      rfl
    · exact (laneWord_writeSlot_ins (.input i q) v s.regs j p).trans
        (if_congr (by simp only [Slot.input.injEq, eq_comm]) rfl rfl)
  · rw [step_writeSlot hport h4 hl (by omega), writeSlot_ignored ho]

/-- Settles O27: a read changes no register, `writeSlot` is idempotent, and the second of two legal words finds the
block busy. -/
theorem onlyCommandWritesHaveSideEffects : Obligations.OnlyCommandWritesHaveSideEffects := by
  refine ⟨fun s rest o hport h4 hl => ?_, fun s rest o v hport h4 hl hc => ?_, fun s rest w hport hw hb => ?_⟩
  · refine ⟨_, _, step_read hport h4 hl, step_read ⟨hport.1, rfl⟩ h4 hl, rfl, rfl, fun ho => ?_⟩
    have hd : readIsDraw (slotAt o) s.regs = false := readIsDraw_slotAt_eq_false ho
    exact ⟨readSlot (slotAt o) (Config.freeWord s.draws) s.regs, by simp [hd]⟩
  · refine ⟨_, _, step_writeSlot hport h4 hl hc, step_writeSlot ⟨hport.1, rfl⟩ h4 hl hc,
      writeSlot_writeSlot _ v s.regs, by simp, by simp, by simp, by simp, fun p => ?_, fun j p => ?_⟩
    · exact (laneWord_writeSlot_k (slotAt o) v s.regs p).trans (if_congr (slotAt_eq_k_iff h4 p) rfl rfl)
    · exact (laneWord_writeSlot_ins (slotAt o) v s.regs j p).trans (if_congr (slotAt_eq_input_iff h4 j p) rfl rfl)
  · obtain ⟨i, hi⟩ := decode_of_legal hw
    exact ⟨_, _, step_command_idle hport hi hb, step_command_busy ⟨hport.1, rfl⟩ rfl, rfl, rfl, rfl, rfl, rfl⟩

/-- Settles O28: a step on an undefined access, or on one during reset, is refused, and any other leads on. -/
theorem stepRefusesExactlyTheUndefinedAccesses : Obligations.StepRefusesExactlyTheUndefinedAccesses := by
  intro s
  simp only [← defect_ne_none_iff]
  by_cases h : ∃ a rest, s.inputs = .access a :: rest ∧ (s.inReset = true ∨ a.defect ≠ none)
  · have ⟨a, rest, hi, hu⟩ := h
    obtain ⟨r, hr, hm⟩ := step_undefined hi hu
    exact ⟨iff_of_true ⟨r, hr⟩ h, nofun, fun m h' => hm m (by simpa [hr] using h')⟩
  · obtain ⟨t, ht⟩ := step_defined h
    exact ⟨iff_of_false (by simp [ht]) h, nofun, by simp [ht]⟩

/-- Settles O29: a lane is fixed by its sixteen bytes. -/
theorem laneLoadAndStoreAreInverse : Obligations.LaneLoadAndStoreAreInverse := by
  refine ⟨fun v j hj => storeLane_getD v hj, fun v => lane_ext fun j hj => ?_, fun b => ?_, fun v r c hr hc => ?_⟩
  · rw [laneByte_loadLane _ hj, storeLane_getD v hj]
  · exact List.map_congr_left fun j hj => laneByte_loadLane b (List.mem_range.1 hj)
  · exact (storeLane_getD v (by omega)).symm

/-- Settles O30: the window map gives the words, and `setLaneWord_all` the lane that four writes leave. -/
theorem registerWordsAreLittleEndian : Obligations.RegisterWordsAreLittleEndian := by
  refine ⟨fun v q j hj => (laneByte_eq_wordByte v q hj).symm, fun v q => rfl, fun r draw q => ?_, fun r draw i q => ?_,
    fun r draw i q hb => ?_, fun s b rest hr hi => runSteps_write_k hr hi,
    fun s b rest i hr hi => runSteps_write_input i hr hi⟩
  · rw [slotAt_k]
    rfl
  · rw [slotAt_input]
    rfl
  · rw [slotAt_output, readSlot_output_idle hb]

/-- Settles O24: only a read of `OUT` while a command is in flight is a draw. -/
theorem busyOutputReadDrawsTheNextFreeValue : Obligations.BusyOutputReadDrawsTheNextFreeValue := by
  intro s rest o hport h4 hl
  refine ⟨fun hlo hhi hb => ?_, fun ho => ?_⟩
  · exact step_read_draw hport h4 hl ((readIsDraw_slotAt_iff o s.regs).2 ⟨⟨hlo, hhi⟩, hb⟩)
  · exact ⟨_, step_read_no_draw hport h4 hl (readIsDraw_slotAt_eq_false ho)⟩

/-- Settles O26. -/
theorem reservedOffsetsReadZeroAndIgnoreWrites : Obligations.ReservedOffsetsReadZeroAndIgnoreWrites := by
  intro s rest o h4 ho
  have hslot : slotAt o = .reserved := slotAt_reserved (ho.imp_right And.left)
  refine ⟨fun hport => ?_, fun v hport => ?_⟩
  · rw [step_read hport h4 (by omega), hslot]
    rfl
  · rw [step_writeSlot hport h4 (by omega) (by omega), hslot]
    rfl

/-- Settles O31. -/
theorem windowMapByOffset : Obligations.WindowMapByOffset :=
  ⟨rfl, rfl, rfl, rfl, slotAt_k, slotAt_input, slotAt_output, fun _ h _ => slotAt_reserved (.inr h)⟩

/-- Settles O32: `windowAccess` is the access at the offset inside the window and none outside. -/
theorem windowLiesAtTheBaseAddress : Obligations.WindowLiesAtTheBaseAddress := by
  refine ⟨Nat.mul_mod_right 256 Config.basePage, fun o bytes w s ho => ?_, fun addr bytes w s h => ?_⟩
  · rw [busAccess, windowAccess_inside ho]
  · rw [busAccess, windowAccess_outside h]

/-- Settles O52: the command latches `IN` as the first write leaves it, and the second write reaches `IN` alone. -/
theorem partialLaneWriteLatchesAMixedLane : Obligations.PartialLaneWriteLatchesAMixedLane := by
  intro s v v' i rest hr hb hi
  have hfirst := step_writeSlot ⟨hr, hi⟩ rfl (by decide) (by decide)
  have hcmd := step_command_idle (s := { s with
    inputs := .access (.wr32 0x04 (encode i)) :: .access (.wr32 0x24 v') :: rest
    regs := writeSlot (.input 0 0) v s.regs }) ⟨hr, rfl⟩ (decode_encode i) hb
  have hsecond := step_writeSlot (s := { s with
    inputs := .access (.wr32 0x24 v') :: rest
    regs := latchCommand i (writeSlot (.input 0 0) v s.regs) }) ⟨hr, rfl⟩ rfl (by decide) (by decide)
  refine ⟨_, _, (runSteps_succ 2 hfirst).trans ((runSteps_succ 1 hcmd).trans (runSteps_succ 0 hsecond)), rfl, ?_⟩
  have hold : ∀ p : Fin 4, p ≠ 0 → laneWord (setLaneWord s.regs.ins.x0 0 v) p = laneWord s.regs.ins.x0 p :=
    fun p hp => laneWord_setLaneWord_other s.regs.ins.x0 v hp
  have hkept := laneWord_setLaneWord_other (setLaneWord s.regs.ins.x0 0 v) (q := 1) (p := 0) v' (by decide)
  exact ⟨laneWord_setLaneWord_same .., hold 1 (by decide), hold 2 (by decide), hold 3 (by decide),
    hkept.trans (laneWord_setLaneWord_same ..), laneWord_setLaneWord_same ..⟩

end Sys2Proof.Machine
end

section
/-! PROOF. The legal words: the words of the commands, by the values of their fields; why each other word is illegal (R72
to R74). -/

namespace Sys2Proof.Machine

open Sys2Proof

/-- The decoder reads a command from a word exactly when the word is that command's (R72). -/
theorem decode_eq_command_iff (w : Word) (i : Instr) : decode w = .command i ↔ w = encode i :=
  ⟨eq_encode_of_decode, fun h => h ▸ decode_encode i⟩

/-- The legal words are the words of the commands (R72, R73). -/
theorem legal_iff_exists_encode (w : Word) : legal w = true ↔ ∃ i : Instr, w = encode i := by
  refine ⟨fun h => ?_, ?_⟩
  · obtain ⟨i, hi⟩ := decode_of_legal h
    exact ⟨i, eq_encode_of_decode hi⟩
  · rintro ⟨i, rfl⟩
    exact legal_encode i

/-- The decoder names a reason exactly for the words that R73 calls illegal (R74). -/
theorem illegal_iff_decode (w : Word) : legal w = false ↔ ∃ why : Illegal, decode w = .illegal why := by
  cases hd : decode w with
  | command i => simp [eq_encode_of_decode hd]
  | illegal why =>
    have hnot : legal w ≠ true := fun h => by
      obtain ⟨i, hi⟩ := decode_of_legal h
      rw [hd] at hi
      cases hi
    simpa using hnot

/-- Words with the same fields are the same word (R70). -/
theorem fieldsOf_injective : Function.Injective fieldsOf :=
  Function.LeftInverse.injective word_fieldsOf

/-- A word is legal when its reserved bits are zero and its other fields are those of `AESR` or of a permutation with
one of the three feed-forwards (R73). -/
theorem legal_iff_fields (w : Word) :
    legal w = true ↔ (fieldsOf w).rsv = 0 ∧
      ((fieldsOf w).opc = 0x1#4 ∧ (fieldsOf w).w = 0 ∧ (fieldsOf w).ff = 0b00#2 ∨
        (fieldsOf w).opc = 0x2#4 ∧ (fieldsOf w).ff ≠ 0b11#2) := by
  have haesr : w = 0x00000001#32 ↔
      (fieldsOf w).rsv = 0 ∧ (fieldsOf w).opc = 0x1#4 ∧ (fieldsOf w).w = 0 ∧ (fieldsOf w).ff = 0b00#2 := by
    rw [← fieldsOf_injective.eq_iff, show fieldsOf 0x00000001#32 = Instr.aesr.fields by decide, Instr.fields]
    cases fieldsOf w
    simp only [Fields.mk.injEq]
    tauto
  simp only [legal, Bool.or_eq_true, Bool.and_eq_true, beq_iff_eq, bne_iff_ne, haesr]
  tauto

/-- The reasons of R74: one of them holds for every illegal word, and for no legal one. -/
theorem illegal_iff_fields (w : Word) :
    legal w = false ↔
      ((fieldsOf w).opc ≠ 0x1#4 ∧ (fieldsOf w).opc ≠ 0x2#4) ∨ (fieldsOf w).ff = 0b11#2 ∨ (fieldsOf w).rsv ≠ 0 ∨
        ((fieldsOf w).opc = 0x1#4 ∧ ((fieldsOf w).w = 1#1 ∨ (fieldsOf w).ff ≠ 0b00#2)) := by
  have hbit : (fieldsOf w).w = 1#1 ↔ (fieldsOf w).w ≠ 0 := by
    generalize (fieldsOf w).w = b
    revert b; decide
  have hopc : (fieldsOf w).opc = 0x1#4 → (fieldsOf w).opc ≠ 0x2#4 := fun h => by rw [h]; decide
  have hff : (fieldsOf w).ff = 0b00#2 → (fieldsOf w).ff ≠ 0b11#2 := fun h => by rw [h]; decide
  rw [← Bool.not_eq_true, legal_iff_fields, hbit]
  tauto

theorem Instr.mem_all (i : Instr) : i ∈ Instr.all := by cases i <;> decide

/-- The step of a write of an illegal word to `CMD` while no command is in flight (R74, R201). -/
theorem step_illegal_idle {s : State} {w : Word} {rest : List Input} (h : AtPort s (.wr32 0x04 w) rest)
    (hw : legal w = false) (hb : s.regs.status.busy = false) :
    step s = .next { s with inputs := rest, regs := raiseCmdError .illegalCmd s.regs } := by
  obtain ⟨why, hd⟩ := (illegal_iff_decode w).1 hw
  rw [step_commandWrite h, commandWrite_illegal _ hd]
  exact presentIllegal_idle (s := { s with inputs := rest }) hb

/-- A spelling names a command exactly when its capitals are the command's mnemonic: no two mnemonics are equal
(R76). -/
theorem Instr.ofMnemonic_eq_some_iff (cs : List Char) (i : Instr) :
    Instr.ofMnemonic cs = some i ↔ cs.map Char.toUpper = i.mnemonic := by
  refine ⟨fun h => ?_, fun h => ?_⟩
  · have hfound := List.find?_some h
    exact (of_decide_eq_true hfound).symm
  · rw [Instr.ofMnemonic, h]
    cases i <;> decide

end Sys2Proof.Machine
end

section
/-! PROOF. The statements about the command words (30_encoding.md sections 1 to 3). -/

namespace Sys2Proof.Machine

open Sys2Proof

/-- Settles O2: only the word of a command decodes to it, and the legal words are those of the commands. -/
theorem decoderAcceptsExactlyTheSevenWords : Obligations.DecoderAcceptsExactlyTheSevenWords :=
  ⟨by decide, decode_eq_command_iff, legal_iff_exists_encode, fun _ => rfl, illegal_iff_decode⟩

/-- Settles O4: the reasons are those of the fields, the legal words those of the commands, and an idle block rejects
every other. -/
theorem illegalWordsAreTheReservedOnes : Obligations.IllegalWordsAreTheReservedOnes := by
  refine ⟨illegal_iff_fields, ⟨Instr.all.map encode, by decide, rfl, fun w => ?_⟩, fun s rest w hport hw hb => ?_⟩
  · rw [legal_iff_exists_encode, List.mem_map]
    exact exists_congr fun i => ⟨fun h => ⟨Instr.mem_all i, h.symm⟩, fun h => h.2.symm⟩
  · exact ⟨_, step_illegal_idle hport hw hb, rfl, rfl, hb, rfl, rfl, rfl, rfl, rfl⟩

/-- Settles O5: zero has a reserved `OPC`. -/
theorem zeroWordIsAnIllegalCommand : Obligations.ZeroWordIsAnIllegalCommand :=
  ⟨rfl, rfl, fun _ _ hport hb => step_illegal_idle hport rfl hb⟩

/-- Settles O6: a spelling is compared with the mnemonics by its capitals. -/
theorem mnemonicsNameTheCommands : Obligations.MnemonicsNameTheCommands := by
  refine ⟨fun i => ?_, fun i => ?_, Instr.ofMnemonic_eq_some_iff⟩
  · rw [Instr.ofMnemonic_eq_some_iff]
    cases i <;> decide
  · rw [Instr.ofMnemonic_eq_some_iff]
    cases i <;> decide

end Sys2Proof.Machine
end

section
/-! PROOF. Rules of the host that runs a script (R77, R78): one turn of it line by line, and runs of writes, of reads and
of a polling loop. -/

namespace Sys2Proof.Machine

open Sys2Proof

/-- A turn of the host that goes on leads to the rest of the schedule (R61). -/
theorem runScript_host {h h' : Script} {s t : State} (rest : List Turn) (ht : hostTurn h s = .running h' t) :
    runScript (.host :: rest) h s = runScript rest h' t := by
  simp [runScript, ht]

/-- A schedule whose first part leaves the script running goes on with its second part. -/
theorem runScript_append {first : List Turn} {h h' : Script} {s t : State} (rest : List Turn)
    (hrun : runScript first h s = .running h' t) : runScript (first ++ rest) h s = runScript rest h' t := by
  induction first generalizing h s with
  | nil =>
    cases hrun
    rfl
  | cons turn turns ih =>
    cases turn with
    | engine => exact ih hrun
    | host =>
      cases ht : hostTurn h s with
      | running h₁ s₁ => exact (runScript_host _ ht).trans (ih ((runScript_host _ ht).symm.trans hrun))
      | stopped why h₁ s₁ => simp [runScript, ht] at hrun

/-- The host's turn at a write whose access the block answers (R77). -/
theorem hostTurn_wr32 {h : Script} {s t : State} {off : Nat} {e : Expr} {v : Word}
    (hl : h.lines[h.pc]? = some (.wr32 off e)) (hv : e.value h.vars = some v)
    (hp : performAccess (.wr32 off v) s = .next t) : hostTurn h s = .running h.advance t := by
  simp [hostTurn, hl, hv, writeTurn, hp]

/-- The host's turn at a read: the variable takes the value of the register (R56, R77). -/
theorem hostTurn_rd32 {h : Script} {s : State} {off : Nat} {x : Var} (hl : h.lines[h.pc]? = some (.rd32 off x))
    (hr : s.inReset = false) (h4 : off % 4 = 0) (hle : off ≤ 0xFC) :
    hostTurn h s = .running
      { h.advance with vars := (x, readSlot (slotAt off) (Config.freeWord s.draws) s.regs) :: h.vars }
      (hostRead (slotAt off) s) := by
  have hp : performAccess (.rd32 off) s = .next (hostRead (slotAt off) s) :=
    performAccess_read hr ((defect_eq_none_iff _).2 ⟨rfl, h4, hle⟩) rfl
  simp [hostTurn, hl, readTurn, hp]

/-- The value of a variable masked by a constant (R77). -/
theorem Expr.value_mask {x : Var} {vars : List (Var × Word)} {v : Word} (hv : lookupVar x vars = some v) (m : Word) :
    (Expr.and (.var x) (.word m)).value vars = some (v &&& m) := by
  simp [Expr.value, hv]

theorem hostTurn_bz {h : Script} {e : Expr} {v : Word} {l : Nat} (s : State)
    (hl : h.lines[h.pc]? = some (.bz e l)) (hv : e.value h.vars = some v) :
    hostTurn h s = branchTurn (v == 0) l h s := by
  simp only [hostTurn, hl, hv]

theorem hostTurn_bnz {h : Script} {e : Expr} {v : Word} {l : Nat} (s : State)
    (hl : h.lines[h.pc]? = some (.bnz e l)) (hv : e.value h.vars = some v) :
    hostTurn h s = branchTurn (v != 0) l h s := by
  simp only [hostTurn, hl, hv]

/-- A defined write reaches the register at its offset (R57). -/
theorem performAccess_wr32 {s : State} {off : Nat} (v : Word) (hr : s.inReset = false) (h4 : off % 4 = 0)
    (hle : off ≤ 0xFC) : performAccess (.wr32 off v) s = hostWrite (slotAt off) v s :=
  performAccess_write hr ((defect_eq_none_iff _).2 ⟨rfl, h4, hle⟩) rfl

/-- A defined write anywhere but at `CMD` changes the register at its offset (R57). -/
theorem performAccess_writeSlot {s : State} {off : Nat} (v : Word) (hr : s.inReset = false) (h4 : off % 4 = 0)
    (hle : off ≤ 0xFC) (hc : off ≠ 0x04) :
    performAccess (.wr32 off v) s = .next { s with regs := writeSlot (slotAt off) v s.regs } := by
  obtain ⟨hs, -⟩ | ⟨-, he⟩ := hostWrite_cases (slotAt off) v s
  · exact absurd ((slotAt_eq_cmd_iff off).1 hs) hc
  · exact (performAccess_wr32 v hr h4 hle).trans he

/-- Every command presented at `CMD` leads to a next state (R200). -/
theorem exec_eq_next (i : Instr) (s : State) : ∃ t, exec i s = .next t := by
  rw [exec_eq_presentCommand]
  unfold presentCommand
  split
  · exact ⟨_, rfl⟩
  · exact ⟨_, rfl⟩

/-- The lines a host has still to execute begin with the line it stands at. -/
theorem Script.line_of_drop {h : Script} {l : Line} {ls : List Line} (hd : h.lines.drop h.pc = l :: ls) :
    h.lines[h.pc]? = some l ∧ h.lines.drop (h.pc + 1) = ls := by
  refine ⟨?_, ?_⟩
  · rw [← List.head?_drop, hd, List.head?_cons]
  · rw [← List.tail_drop, hd, List.tail_cons]

/-- A host that stands before any number of writes of words anywhere but at `CMD` makes them in order (R57, R77). -/
theorem runScript_writes (writes : List (Nat × Word)) {h : Script} {s : State} {tail : List Line}
    (hw : ∀ w ∈ writes, w.1 % 4 = 0 ∧ w.1 ≤ 0xFC ∧ w.1 ≠ 0x04) (hr : s.inReset = false)
    (hd : h.lines.drop h.pc = writes.map (fun w => .wr32 w.1 (.word w.2)) ++ tail) :
    runScript (List.replicate writes.length .host) h s = .running { h with pc := h.pc + writes.length }
      { s with regs := writes.foldl (fun r w => writeSlot (slotAt w.1) w.2 r) s.regs } := by
  induction writes generalizing h s with
  | nil => rfl
  | cons w ws ih =>
    obtain ⟨⟨h4, hle, hc⟩, hws⟩ := List.forall_mem_cons.1 hw
    obtain ⟨hl, hrest⟩ := Script.line_of_drop hd
    have hturn := hostTurn_wr32 hl rfl (performAccess_writeSlot w.2 hr h4 hle hc)
    have hmore := ih (h := h.advance) (s := { s with regs := writeSlot (slotAt w.1) w.2 s.regs }) hws hr hrest
    rw [List.length_cons, List.replicate_succ, runScript_host _ hturn, hmore, Nat.add_comm ws.length 1,
      ← Nat.add_assoc]
    rfl

/-- The variables of a host after reads that are no draws, each with the value of its register (R56, R77). -/
def varsAfterReads (reads : List (Nat × Var)) (r : Regs) (vars : List (Var × Word)) : List (Var × Word) :=
  reads.foldl (fun vs rd => (rd.2, readSlot (slotAt rd.1) 0 r) :: vs) vars

/-- A read that is no draw returns its register, whatever the next free value is (R56). -/
theorem readSlot_no_draw {sl : Slot} {r : Regs} (h : readIsDraw sl r = false) (draw draw' : Word) :
    readSlot sl draw r = readSlot sl draw' r := by
  cases sl with
  | output i q => simp_all [readIsDraw, readSlot, Slot.isOutput]
  | _ => rfl

/-- A host that stands before any number of reads that are no draws makes them in order; no register changes (R56,
R77). -/
theorem runScript_reads (reads : List (Nat × Var)) {h : Script} {s : State} {tail : List Line}
    (hrd : ∀ rd ∈ reads, rd.1 % 4 = 0 ∧ rd.1 ≤ 0xFC ∧ readIsDraw (slotAt rd.1) s.regs = false)
    (hr : s.inReset = false) (hd : h.lines.drop h.pc = reads.map (fun rd => .rd32 rd.1 rd.2) ++ tail) :
    ∃ t, runScript (List.replicate reads.length .host) h s =
        .running { h with pc := h.pc + reads.length, vars := varsAfterReads reads s.regs h.vars } t ∧
      t.regs = s.regs := by
  induction reads generalizing h s with
  | nil => exact ⟨s, rfl, rfl⟩
  | cons rd rds ih =>
    obtain ⟨⟨h4, hle, hdraw⟩, hrds⟩ := List.forall_mem_cons.1 hrd
    obtain ⟨hl, hrest⟩ := Script.line_of_drop hd
    have hturn := hostTurn_rd32 hl hr h4 hle
    rw [readSlot_no_draw hdraw _ 0] at hturn
    obtain ⟨t, ht, hregs⟩ := ih (s := hostRead (slotAt rd.1) s)
      (h := { h.advance with vars := (rd.2, readSlot (slotAt rd.1) 0 s.regs) :: h.vars }) hrds hr hrest
    refine ⟨t, ?_, hregs⟩
    rw [List.length_cons, List.replicate_succ, runScript_host _ hturn, ht, Nat.add_comm rds.length 1, ← Nat.add_assoc]
    rfl

end Sys2Proof.Machine
end

section
/-! PROOF. What the expansions of R78 do: `wrlane`, `rdlane` and one round of a loop that polls `STATUS`. -/

namespace Sys2Proof.Machine

open Sys2Proof

/-- The register of the window at word `q` of a lane register (R51, R78). -/
def LaneReg.slot : LaneReg → Fin 4 → Slot
  | .k, q => .k q
  | .input i, q => .input i q
  | .output i, q => .output i q

/-- The registers with a lane written to a lane register; `OUT` ignores it (R57). -/
def LaneReg.write (v : Lane) (g : Regs) : LaneReg → Regs
  | .k => { g with k := v }
  | .input i => { g with ins := setLane g.ins i v }
  | .output _ => g

@[simp] theorem LaneReg.write_status (v : Lane) (g : Regs) (r : LaneReg) : (r.write v g).status = g.status := by
  cases r <;> rfl
@[simp] theorem LaneReg.write_outs (v : Lane) (g : Regs) (r : LaneReg) : (r.write v g).outs = g.outs := by
  cases r <;> rfl
@[simp] theorem LaneReg.write_pend (v : Lane) (g : Regs) (r : LaneReg) : (r.write v g).pend = g.pend := by
  cases r <;> rfl

theorem LaneReg.slotAt_base (r : LaneReg) (q : Fin 4) : slotAt (r.base + 4 * q.val) = r.slot q := by
  cases r with
  | k => exact slotAt_k q
  | input i => exact slotAt_input i q
  | output i => exact slotAt_output i q

/-- The four words of a lane register lie at `Rbase`, `Rbase + 4`, `Rbase + 8` and `Rbase + 12` (R55, R78). -/
theorem LaneReg.slotAt_words (r : LaneReg) :
    slotAt (r.base + 0x0) = r.slot 0 ∧ slotAt (r.base + 0x4) = r.slot 1 ∧ slotAt (r.base + 0x8) = r.slot 2 ∧
      slotAt (r.base + 0xC) = r.slot 3 :=
  ⟨r.slotAt_base 0, r.slotAt_base 1, r.slotAt_base 2, r.slotAt_base 3⟩

/-- The lane registers lie between `STATUS` and the reserved top of the window, at multiples of 16 (R51). -/
theorem LaneReg.base_bounds (r : LaneReg) : r.base % 16 = 0 ∧ 0x10 ≤ r.base ∧ r.base ≤ 0x90 := by
  cases r with
  | k => decide
  | input i | output i => simp only [LaneReg.base]; omega

/-- Writes to the four words of a lane register write the lane made of them (R55, R57). -/
theorem LaneReg.writeSlot_all (r : LaneReg) (g : Regs) (t0 t1 t2 t3 : Word) :
    writeSlot (r.slot 3) t3 (writeSlot (r.slot 2) t2 (writeSlot (r.slot 1) t1 (writeSlot (r.slot 0) t0 g))) =
      r.write (laneOfWords t0 t1 t2 t3) g := by
  cases r with
  | k => exact writeSlot_k_all g t0 t1 t2 t3
  | input i => exact writeSlot_input_all g i t0 t1 t2 t3
  | output i => rfl

/-- The words of `K` and `IN[i]` read as those of the lane last written (R56, R57). -/
theorem LaneReg.readSlot_write {r : LaneReg} (hout : ∀ i, r ≠ .output i) (v : Lane) (g : Regs) (draw : Word)
    (q : Fin 4) : readSlot (r.slot q) draw (r.write v g) = laneWord v q := by
  cases r with
  | k => rfl
  | input i => exact congrArg (laneWord · q) (laneAt_setLane_same g.ins i v)
  | output i => exact absurd rfl (hout i)

/-- No read of `K` or `IN[i]` is a draw (R56). -/
theorem LaneReg.readIsDraw_slot {r : LaneReg} (hout : ∀ i, r ≠ .output i) (g : Regs) (q : Fin 4) :
    readIsDraw (r.slot q) g = false := by
  cases r with
  | k | input i => rfl
  | output i => exact absurd rfl (hout i)

/-- `wrlane` of sixteen bytes writes the lane they make (R54, R78). -/
theorem runScript_wrlane (r : LaneReg) (b : Nat → Byte) {h : Script} {s : State} {tail : List Line}
    (hr : s.inReset = false) (hd : h.lines.drop h.pc = wrlaneBytes r b ++ tail) :
    runScript (List.replicate 4 .host) h s =
      .running { h with pc := h.pc + 4 } { s with regs := r.write (loadLane b) s.regs } := by
  obtain ⟨h0, h1, h2, h3⟩ := r.slotAt_words
  have hb := r.base_bounds
  refine (runScript_writes [(r.base + 0x0, wordOfBytes (b 0) (b 1) (b 2) (b 3)),
    (r.base + 0x4, wordOfBytes (b 4) (b 5) (b 6) (b 7)), (r.base + 0x8, wordOfBytes (b 8) (b 9) (b 10) (b 11)),
    (r.base + 0xC, wordOfBytes (b 12) (b 13) (b 14) (b 15))] (by simp; omega) hr hd).trans ?_
  simp only [List.foldl_cons, List.foldl_nil, h0, h1, h2, h3, LaneReg.writeSlot_all]
  rfl

/-- `rdlane` of a register whose reads are no draws sets the lane variable to the lane its words make (R56, R78). -/
theorem runScript_rdlane (r : LaneReg) (name : Nat) {h : Script} {s : State} {tail : List Line}
    (hdraw : ∀ q, readIsDraw (r.slot q) s.regs = false) (hr : s.inReset = false)
    (hd : h.lines.drop h.pc = rdlane r name ++ tail) :
    ∃ vars t, runScript (List.replicate 4 .host) h s = .running { h with pc := h.pc + 4, vars := vars } t ∧
      t.regs = s.regs ∧
      laneVar name vars = some (laneOfWords (readSlot (r.slot 0) 0 s.regs) (readSlot (r.slot 1) 0 s.regs)
        (readSlot (r.slot 2) 0 s.regs) (readSlot (r.slot 3) 0 s.regs)) := by
  obtain ⟨h0, h1, h2, h3⟩ := r.slotAt_words
  have hb := r.base_bounds
  obtain ⟨t, hrun, ht⟩ := runScript_reads [(r.base + 0x0, ⟨name, 0⟩), (r.base + 0x4, ⟨name, 1⟩),
    (r.base + 0x8, ⟨name, 2⟩), (r.base + 0xC, ⟨name, 3⟩)]
    (by simp only [List.forall_mem_cons, h0, h1, h2, h3, hdraw]; simp; omega) hr hd
  refine ⟨_, t, hrun, ht, ?_⟩
  simp only [varsAfterReads, List.foldl_cons, List.foldl_nil, h0, h1, h2, h3]
  simp [laneVar, lookupVar]

/-- `DONE` is bit 1 of `STATUS` (R25, R78). -/
theorem Status.word_and_done (s : Status) : (s.word &&& 0x2 == 0) = !s.done := by
  rw [show (0x2 : Word) = BitVec.twoPow 32 1 by decide, BitVec.and_twoPow, s.getLsbD_word]
  cases s.done <;> rfl

/-- `BUSY` is bit 0 of `STATUS` (R25, R78). -/
theorem Status.word_and_busy (s : Status) : (s.word &&& 0x1 != 0) = s.busy := by
  rw [show (0x1 : Word) = BitVec.twoPow 32 0 by decide, BitVec.and_twoPow, s.getLsbD_word]
  cases s.busy <;> rfl

/-- A branch to the label at the start of the script is taken there or goes on at the next line (R77). -/
theorem branchTurn_first_label {h : Script} {l : Nat} {ls : List Line} (hl : h.lines = .label l :: ls) (taken : Bool)
    (s : State) : branchTurn taken l h s = .running { h with pc := if taken then 0 else h.pc + 1 } s := by
  cases taken with
  | false => rfl
  | true => simp [branchTurn, labelIndex, hl]

/-- The label and the read with which a loop that polls `STATUS` begins (R78). -/
theorem runScript_poll (x : Var) (l : Nat) (tail : List Line) (vars : List (Var × Word)) {s : State}
    (rest : List Turn) (hr : s.inReset = false) :
    runScript (.host :: .host :: rest) { lines := .label l :: .rd32 0x08 x :: tail, pc := 0, vars := vars } s =
      runScript rest { lines := .label l :: .rd32 0x08 x :: tail, pc := 2, vars := (x, s.regs.status.word) :: vars }
        (hostRead .status s) :=
  (runScript_host _ rfl).trans (runScript_host _ (hostTurn_rd32 (off := 0x08) rfl hr rfl (by decide)))

/-- One round of a loop that polls `STATUS`: its last line `b` is a branch back to the label at its start (R77, R78). -/
theorem runScript_pollRound (x : Var) (l : Nat) (b : Line) (taken : Bool) (tail : List Line)
    (vars : List (Var × Word)) {s : State} (hr : s.inReset = false)
    (hb : ∀ (h : Script) (t : State), h.lines[h.pc]? = some b → lookupVar x h.vars = some s.regs.status.word →
      hostTurn h t = branchTurn taken l h t) :
    ∃ h t, runScript (List.replicate 3 .host)
        { lines := .label l :: .rd32 0x08 x :: b :: tail, pc := 0, vars := vars } s = .running h t ∧
      t.regs = s.regs ∧ lookupVar x h.vars = some s.regs.status.word ∧ h.pc = if taken then 0 else 3 := by
  have hvar : lookupVar x ((x, s.regs.status.word) :: vars) = some s.regs.status.word := if_pos rfl
  have hturn := (hb { lines := .label l :: .rd32 0x08 x :: b :: tail, pc := 2, vars := (x, s.regs.status.word) :: vars }
    (hostRead .status s) rfl hvar).trans (branchTurn_first_label rfl taken _)
  exact ⟨_, _, (runScript_poll x l _ vars [.host] hr).trans (runScript_host [] hturn), rfl, hvar, rfl⟩

end Sys2Proof.Machine
end

section
/-! PROOF. The statements about host scripts (30_encoding.md section 4). -/

namespace Sys2Proof.Machine

open Sys2Proof

/-- Settles O53: `wrlane` leaves the lane in the register, and `rdlane` joins its four words again. -/
theorem wrlaneThenRdlaneReturnsTheLane : Obligations.WrlaneThenRdlaneReturnsTheLane := by
  intro r b name tail vars s hout hr
  have hwrite := runScript_wrlane r b (tail := rdlane r name ++ tail)
    (h := { lines := wrlaneBytes r b ++ rdlane r name ++ tail, pc := 0, vars := vars }) hr rfl
  obtain ⟨vars', t, hread, ht, hlane⟩ := runScript_rdlane r name (tail := tail)
    (h := { lines := wrlaneBytes r b ++ rdlane r name ++ tail, pc := 4, vars := vars })
    (s := { s with regs := r.write (loadLane b) s.regs }) (LaneReg.readIsDraw_slot hout _) hr rfl
  refine ⟨_, t, (runScript_append (List.replicate 4 .host) hwrite).trans hread, rfl, ?_, ?_, ?_, ?_⟩
  · simpa only [LaneReg.readSlot_write hout, laneOfWords_laneWords] using hlane
  · rw [ht, LaneReg.write_status]
  · rw [ht, LaneReg.write_outs]
  · rw [ht, LaneReg.write_pend]

/-- Settles O55: the loop reads `STATUS` and branches on its bit 1 or bit 0. -/
theorem waitLoopsPollStatus : Obligations.WaitLoopsPollStatus := by
  intro x l tail vars s hr
  refine ⟨?_, ?_⟩
  · obtain ⟨h, t, hrun, hregs, hvar, hpc⟩ := runScript_pollRound ⟨x, 0⟩ l (.bz (.and (.var ⟨x, 0⟩) (.word 0x2)) l)
      (!s.regs.status.done) tail vars hr fun h t hl hv => by
        rw [hostTurn_bz t hl (Expr.value_mask hv 0x2), Status.word_and_done]
    exact ⟨h, t, hrun, hregs, hvar, hpc.trans (by cases s.regs.status.done <;> rfl)⟩
  · obtain ⟨h, t, hrun, hregs, hvar, hpc⟩ := runScript_pollRound ⟨x, 0⟩ l (.bnz (.and (.var ⟨x, 0⟩) (.word 0x1)) l)
      s.regs.status.busy tail vars hr fun h t hl hv => by
        rw [hostTurn_bnz t hl (Expr.value_mask hv 0x1), Status.word_and_busy]
    exact ⟨h, t, hrun, hregs, hvar, hpc.trans (by cases s.regs.status.busy <;> rfl)⟩

/-- Settles O54: the line is a write of the command's word to `CMD`, which decodes to the command. -/
theorem cmdLineRunsTheCommand : Obligations.CmdLineRunsTheCommand := by
  intro i h s l hr hl hline
  obtain rfl : Line.wr32 0x04 (.word (encode i)) = l := (List.cons.inj hl).1
  obtain ⟨t, ht⟩ := exec_eq_next i s
  have hp : performAccess (.wr32 0x04 (encode i)) s = .next t := by
    rw [performAccess_wr32 _ hr rfl (by decide), (slotAt_eq_cmd_iff 0x04).2 rfl, ← ht]
    exact commandWrite_command s (decode_encode i)
  exact ⟨t, ht, hostTurn_wr32 hline rfl hp⟩

end Sys2Proof.Machine
end

section
/-! PROOF. The AES stage byte by byte: where each step takes a lane byte from, the field of MixColumns and of the S-box,
and lanes of sixteen equal bytes (R100 to R105). -/

namespace Sys2Proof.Machine

open Sys2Proof

/-- A state entry is the lane byte at its row below the start of its column (R101). -/
theorem stateByte_eq (x : Lane) (r c : Nat) : stateByte x r c = laneByte x (4 * c + r) := by
  rw [stateByte, Nat.add_comm]

/-- Lane byte `j` is the state entry in row `j mod 4` and column `j div 4` (R101). -/
theorem laneByte_laneOfState (m : Nat → Nat → Byte) {j : Nat} (hj : j < 16) :
    laneByte (laneOfState m) j = m (j % 4) (j / 4) :=
  laneByte_loadLane _ hj

/-- A lane holds the state entry in row `r` and column `c` at byte `4c + r` (R101). -/
theorem laneByte_laneOfState_entry (m : Nat → Nat → Byte) {r c : Nat} (hr : r < 4) (hc : c < 4) :
    laneByte (laneOfState m) (4 * c + r) = m r c := by
  rw [laneByte_laneOfState m (by omega), Nat.mul_add_mod, Nat.mod_eq_of_lt hr, Nat.mul_add_div (by decide),
    Nat.div_eq_of_lt hr, Nat.add_zero]

theorem laneByte_subBytes (x : Lane) {j : Nat} (hj : j < 16) : laneByte (subBytes x) j = sbox (laneByte x j) :=
  laneByte_loadLane _ hj

/-- The lane byte that ShiftRows takes its byte `j` from (R102). -/
def shiftRowsSource (j : Nat) : Nat := j % 4 + 4 * ((j / 4 + j % 4) % 4)

theorem laneByte_shiftRows (x : Lane) {j : Nat} (hj : j < 16) :
    laneByte (shiftRows x) j = laneByte x (shiftRowsSource j) :=
  laneByte_laneOfState _ hj

/-- MixColumns in row `r` and column `c` (R103). -/
theorem laneByte_mixColumns (x : Lane) {r c : Nat} (hr : r < 4) (hc : c < 4) :
    laneByte (mixColumns x) (4 * c + r) = mixColumn (laneByte x (4 * c)) (laneByte x (4 * c + 1))
      (laneByte x (4 * c + 2)) (laneByte x (4 * c + 3)) r := by
  rw [mixColumns, laneByte_laneOfState_entry _ hr hc]
  simp only [stateByte_eq, Nat.add_zero]

/-- Doubling in 8 bits: the top bit that `0x11B` cancels is the one the shift drops (R103). -/
theorem gfDouble_eq (a : Byte) : gfDouble a = (a <<< 1) ^^^ (if a.getLsbD 7 then 0x1B#8 else 0#8) := by
  have hshift : (a.setWidth 9 <<< 1).setWidth 8 = a <<< 1 := by simp
  rw [gfDouble, BitVec.setWidth_xor, hshift, apply_ite (BitVec.setWidth 8)]
  rfl

/-- The inverse of the affine map of R100. -/
def affineInverse (a : Byte) : Byte := a.rotateLeft 1 ^^^ a.rotateLeft 3 ^^^ a.rotateLeft 6 ^^^ 0x05#8

theorem affine_affineInverse (a : Byte) : affine (affineInverse a) = a := by
  revert a; decide

/-- Undoing the affine map on the table's entry of `a` leaves the inverse of `a` in the field, and 0 for 0 (R100). -/
theorem affineInverse_sbox (a : Byte) :
    if a = 0 then affineInverse (sbox a) = 0 else gfMul a (affineInverse (sbox a)) = 1 := by
  revert a; decide

/-- The lane of sixteen bytes `b`. -/
def uniformLane (b : Byte) : Lane := loadLane fun _ => b

theorem laneByte_uniformLane (b : Byte) {j : Nat} (hj : j < 16) : laneByte (uniformLane b) j = b :=
  laneByte_loadLane _ hj

theorem subBytes_uniformLane (b : Byte) : subBytes (uniformLane b) = uniformLane (sbox b) :=
  lane_ext fun j hj => by
    rw [laneByte_subBytes _ hj, laneByte_uniformLane b hj, laneByte_uniformLane _ hj]

theorem shiftRows_uniformLane (b : Byte) : shiftRows (uniformLane b) = uniformLane b :=
  lane_ext fun j hj => by
    have hsource : shiftRowsSource j < 16 := by unfold shiftRowsSource; omega
    rw [laneByte_shiftRows _ hj, laneByte_uniformLane b hsource, laneByte_uniformLane b hj]

/-- A column of four equal bytes is a fixed point of MixColumns: `2 ^ 3 ^ 1 ^ 1 = 1` (R107). -/
theorem mixColumn_self (a : Byte) (r : Nat) : mixColumn a a a a r = a := by
  unfold mixColumn gfTriple
  split <;> simp [BitVec.xor_assoc]

theorem mixColumns_uniformLane (b : Byte) : mixColumns (uniformLane b) = uniformLane b :=
  lane_ext fun j hj => by
    have hentry : ∀ r < 4, laneByte (uniformLane b) (4 * (j / 4) + r) = b :=
      fun r hr => laneByte_uniformLane b (by omega)
    rw [← Nat.div_add_mod j 4, laneByte_mixColumns _ (by omega) (by omega), hentry 1 (by decide),
      hentry 2 (by decide), hentry 3 (by decide), hentry _ (by omega), laneByte_uniformLane b (by omega), mixColumn_self]

/-- The three keyless steps of the round take sixteen bytes `b` to sixteen S-box entries of `b` (R107). -/
theorem keylessRound_uniformLane (b : Byte) :
    mixColumns (shiftRows (subBytes (uniformLane b))) = uniformLane (sbox b) := by
  rw [subBytes_uniformLane, shiftRows_uniformLane, mixColumns_uniformLane]

end Sys2Proof.Machine
end

section
/-! PROOF. The statements about the AES stage and its command (40_aes_round.md). -/

namespace Sys2Proof.Machine

open Sys2Proof

/-- Settles O10: acceptance and `CMD_BUSY` are those of every command, completion writes the lane of `resultLanes_aesr`,
the corner cases are lanes of equal bytes, and the worked example is computed. -/
theorem aesrLatchesThenWritesOneLane : Obligations.AesrLatchesThenWritesOneLane := by
  have hzeros : (0 : Lane) = uniformLane 0x00 := by decide
  have hones : 0xffffffffffffffffffffffffffffffff#128 = uniformLane 0xff := by decide
  refine ⟨decode_encode .aesr, fun s hb => presentCommand_idle .aesr hb, fun s hb => presentCommand_busy .aesr hb,
    fun t rest x kl hi hp => ?_, ?_, ?_, ?_, by decide⟩
  · rw [step_engine hi, engineTurn_some hp]
    rfl
  · rw [hzeros, keylessRound_uniformLane]
    decide
  · rw [hzeros, keylessRound_uniformLane]
    decide
  · rw [hones, keylessRound_uniformLane]
    decide

/-- Settles O33: the inverse of `a` is what undoing the affine map on its table entry leaves. -/
theorem sBoxIsTheAffineImageOfTheInverse : Obligations.SBoxIsTheAffineImageOfTheInverse :=
  ⟨fun x _ hj => laneByte_subBytes x hj,
    fun a => ⟨affineInverse (sbox a), affineInverse_sbox a, (affine_affineInverse (sbox a)).symm⟩⟩

/-- Settles O34: both forms read each byte from its `shiftRowsSource`. -/
theorem shiftRowsRotatesEachRow : Obligations.ShiftRowsRotatesEachRow := by
  refine ⟨fun x r c hr hc => ?_, fun x => ?_⟩
  · rw [Nat.add_comm r, shiftRows, laneByte_laneOfState_entry _ hr hc, stateByte]
  · calc storeLane (shiftRows x)
      _ = (List.range 16).map (fun j => laneByte x (shiftRowsSource j)) :=
        List.map_congr_left fun j hj => laneByte_shiftRows x (List.mem_range.1 hj)
      _ = ([0, 5, 10, 15, 4, 9, 14, 3, 8, 13, 2, 7, 12, 1, 6, 11] : List Nat).map (laneByte x) := rfl

/-- Settles O35: `laneByte_mixColumns` in each of the four rows. -/
theorem mixColumnsMapsEachColumn : Obligations.MixColumnsMapsEachColumn :=
  ⟨fun x _ hc => ⟨laneByte_mixColumns x (r := 0) (by decide) hc, laneByte_mixColumns x (r := 1) (by decide) hc,
    laneByte_mixColumns x (r := 2) (by decide) hc, laneByte_mixColumns x (r := 3) (by decide) hc⟩,
    gfDouble_eq, fun _ => rfl⟩

/-- The round with an operand is the round without one, XOR the operand (R105). -/
theorem aesRound_eq_xor (x k : Lane) : aesRound x k = aesRound x 0 ^^^ k := by
  simp [aesRound, addRoundKey]

/-- Settles O36: `aesRound_eq_xor` for both operands, where the round without an operand cancels. -/
theorem roundOperandEntersByXor : Obligations.RoundOperandEntersByXor := by
  refine ⟨fun _ _ => rfl, fun _ _ => rfl, fun x k k' => ?_, aesRound_eq_xor⟩
  rw [aesRound_eq_xor x k, aesRound_eq_xor x k', BitVec.xor_comm (aesRound x 0) k, BitVec.xor_assoc, xor_cancel_left]

end Sys2Proof.Machine
end

section
/-! PROOF. The permutation engines: the states between the rounds, and a permutation command as the compression without
feed-forward (R122, R123, R141, R142). -/

namespace Sys2Proof.Machine

open Sys2Proof

/-- The state after the first `k` of `n` rounds; beyond the last round, the start (R122, R123). -/
def stateAfterRounds {S : Type} {n : Nat} (round : Fin n → S → S) (x : S) (k : Nat) : S :=
  if h : k ≤ n then runRounds round k h x else x

theorem stateAfterRounds_eq {S : Type} {n : Nat} (round : Fin n → S → S) (x : S) {k : Nat} (h : k ≤ n) :
    stateAfterRounds round x k = runRounds round k h x := dif_pos h

/-- Round `i` leads from the state after `i` rounds to the state after `i + 1` (R122, R123). -/
theorem stateAfterRounds_succ {S : Type} {n : Nat} (round : Fin n → S → S) (x : S) (i : Fin n) :
    stateAfterRounds round x (i.val + 1) = round i (stateAfterRounds round x i.val) := by
  rw [stateAfterRounds_eq round x i.isLt, stateAfterRounds_eq round x i.isLt.le, runRounds_succ]

/-- All `n` rounds lead from the start to the result through the states between them, in index order (R122, R123). -/
theorem exists_states_between_rounds {S : Type} {n : Nat} (round : Fin n → S → S) (x : S) :
    ∃ y : Nat → S, y 0 = x ∧ (∀ i : Fin n, y (i.val + 1) = round i (y i.val)) ∧
      runRounds round n (Nat.le_refl n) x = y n :=
  ⟨stateAfterRounds round x, stateAfterRounds_eq round x (Nat.zero_le n), stateAfterRounds_succ round x,
    (stateAfterRounds_eq round x (Nat.le_refl n)).symm⟩

/-- Without feed-forward the mask is zero in every lane (R141). -/
@[simp] theorem ffMask_off (w : Width) (x : Lanes) (i : Fin 4) : ffMask w .off x i = 0 := rfl

/-- Without feed-forward the 256-bit compression is the permutation (R142). -/
theorem compress256_off (c : RoundParams) (x : Lanes) :
    compress256 c .off x = p256 c { x0 := x.x0, x1 := x.x1 } := by
  simp [compress256]

/-- Without feed-forward the 512-bit compression is the permutation (R142). -/
theorem compress512_off (c : RoundParams) (x : Lanes) : compress512 c .off x = p512 c x := by
  simp [compress512]

end Sys2Proof.Machine
end

section
/-! PROOF. The statements about the permutations and their commands (41_permutation.md). -/

namespace Sys2Proof.Machine

open Sys2Proof

/-- Settles O38: the states between the rounds of `P256`. -/
theorem areion256RunsItsRoundsInOrder : Obligations.Areion256RunsItsRoundsInOrder :=
  fun c x => exists_states_between_rounds (fun i s => c.round256 i (c.rc256 i) s) x

/-- Settles O39: the states between the rounds of `P512`. -/
theorem areion512RunsItsRoundsInOrder : Obligations.Areion512RunsItsRoundsInOrder :=
  fun c x => exists_states_between_rounds (fun i s => c.round512 i (c.rc512 i) s) x

/-- Settles O11: acceptance and `CMD_BUSY` are those of every command, completion writes the lanes of
`resultLanes_perm256` without feed-forward, and the worked example is computed. -/
theorem perm256LatchesThenWritesTwoLanes : Obligations.Perm256LatchesThenWritesTwoLanes := by
  refine ⟨decode_encode .perm256, fun s hb => presentCommand_idle .perm256 hb,
    fun s hb => presentCommand_busy .perm256 hb, fun t rest x kl hi hp => ?_, by decide +kernel⟩
  rw [step_engine hi, engineTurn_some hp, completePending, resultLanes_perm256 rfl rfl, compress256_off]
  rfl

/-- Settles O12: acceptance and `CMD_BUSY` are those of every command, completion writes the lanes of
`resultLanes_perm512` without feed-forward, and the worked example is computed. -/
theorem perm512LatchesThenWritesFourLanes : Obligations.Perm512LatchesThenWritesFourLanes := by
  refine ⟨decode_encode .perm512, fun s hb => presentCommand_idle .perm512 hb,
    fun s hb => presentCommand_busy .perm512 hb, fun t rest x kl hi hp => ?_, by decide +kernel⟩
  rw [step_engine hi, engineTurn_some hp, completePending, resultLanes_perm512 rfl rfl, compress512_off]
  rfl

end Sys2Proof.Machine
end

section
/-! PROOF. The compression wrapper: the feed-forward mask by halves, each compression lane by lane, and the completion
of a compression command (R141, R142, R205). -/

namespace Sys2Proof.Machine

open Sys2Proof

/-- Davies–Meyer feeds the lanes below `N/2` forward (R141). -/
theorem ffMask_chaining (w : Width) (x : Lanes) (i : Fin 4) :
    ffMask w .chaining x i = if i.val < w.lanes / 2 then laneAt x i else 0 := rfl

/-- Matyas–Meyer–Oseas feeds the lanes from `N/2` on forward (R141). -/
theorem ffMask_message (w : Width) (x : Lanes) (i : Fin 4) :
    ffMask w .message x i = if w.lanes / 2 ≤ i.val then laneAt x i else 0 := rfl

/-- Every lane lies in one half and one only, so the two masks together are the input (R141). -/
theorem ffMask_chaining_xor_message (w : Width) (x : Lanes) (i : Fin 4) :
    ffMask w .chaining x i ^^^ ffMask w .message x i = laneAt x i := by
  rw [ffMask_chaining, ffMask_message]
  by_cases h : i.val < w.lanes / 2
  · rw [if_pos h, if_neg (by omega), xor_zero]
  · rw [if_neg h, if_pos (by omega), zero_xor]

/-- Of two feed-forwards of one result, only the masks are left. -/
theorem xor_masks (y a b : Lane) : (y ^^^ a) ^^^ (y ^^^ b) = a ^^^ b := by
  rw [BitVec.xor_comm y a, BitVec.xor_assoc, xor_cancel_left]

/-- Two 256-bit compressions of one input differ by their masks, whatever the rounds are (R142). -/
theorem compress256_xor (c : RoundParams) (ff ff' : FeedForward) (x : Lanes) :
    (compress256 c ff x).x0 ^^^ (compress256 c ff' x).x0 = ffMask .w256 ff x 0 ^^^ ffMask .w256 ff' x 0 ∧
      (compress256 c ff x).x1 ^^^ (compress256 c ff' x).x1 = ffMask .w256 ff x 1 ^^^ ffMask .w256 ff' x 1 :=
  ⟨xor_masks _ _ _, xor_masks _ _ _⟩

theorem laneAt_compress512 (c : RoundParams) (ff : FeedForward) (x : Lanes) (i : Fin 4) :
    laneAt (compress512 c ff x) i = laneAt (p512 c x) i ^^^ ffMask .w512 ff x i := by
  fin_cases i <;> rfl

/-- Two 512-bit compressions of one input differ by their masks, whatever the rounds are (R142). -/
theorem compress512_xor (c : RoundParams) (ff ff' : FeedForward) (x : Lanes) (i : Fin 4) :
    laneAt (compress512 c ff x) i ^^^ laneAt (compress512 c ff' x) i =
      ffMask .w512 ff x i ^^^ ffMask .w512 ff' x i := by
  rw [laneAt_compress512, laneAt_compress512, xor_masks]

/-- `DM256` lane by lane (R144). -/
theorem compress256_chaining (c : RoundParams) (x : Lanes) :
    compress256 c .chaining x =
      { x0 := (p256 c { x0 := x.x0, x1 := x.x1 }).x0 ^^^ x.x0, x1 := (p256 c { x0 := x.x0, x1 := x.x1 }).x1 } := by
  simp [compress256, ffMask_chaining, Width.lanes, laneAt]

/-- `MMO256` lane by lane (R146). -/
theorem compress256_message (c : RoundParams) (x : Lanes) :
    compress256 c .message x =
      { x0 := (p256 c { x0 := x.x0, x1 := x.x1 }).x0, x1 := (p256 c { x0 := x.x0, x1 := x.x1 }).x1 ^^^ x.x1 } := by
  simp [compress256, ffMask_message, Width.lanes, laneAt]

/-- `DM512` lane by lane (R145). -/
theorem compress512_chaining (c : RoundParams) (x : Lanes) :
    compress512 c .chaining x =
      { x0 := (p512 c x).x0 ^^^ x.x0, x1 := (p512 c x).x1 ^^^ x.x1, x2 := (p512 c x).x2, x3 := (p512 c x).x3 } := by
  simp [compress512, ffMask_chaining, Width.lanes, laneAt]

/-- `MMO512` lane by lane (R147). -/
theorem compress512_message (c : RoundParams) (x : Lanes) :
    compress512 c .message x =
      { x0 := (p512 c x).x0, x1 := (p512 c x).x1, x2 := (p512 c x).x2 ^^^ x.x2, x3 := (p512 c x).x3 ^^^ x.x3 } := by
  simp [compress512, ffMask_message, Width.lanes, laneAt]

/-- The engine's turn on a pending 256-bit permutation or compression command (R205). -/
theorem step_completes256 {t : State} {rest : List Input} {ff : FeedForward} {x : Lanes} {kl : Lane}
    (hi : t.inputs = .engine :: rest)
    (hp : t.regs.pend = some { op := .perm, width := .w256, ff := ff, x := x, kl := kl }) :
    step t = .next { t with inputs := rest, regs := { t.regs with
      pend := none
      status := t.regs.status.completed
      outs := { t.regs.outs with
        x0 := (compress256 Config.build ff x).x0, x1 := (compress256 Config.build ff x).x1 } } } := by
  rw [step_engine hi, engineTurn_some hp, completePending, resultLanes_perm256 rfl rfl]

/-- The engine's turn on a pending 512-bit permutation or compression command (R205). -/
theorem step_completes512 {t : State} {rest : List Input} {ff : FeedForward} {x : Lanes} {kl : Lane}
    (hi : t.inputs = .engine :: rest)
    (hp : t.regs.pend = some { op := .perm, width := .w512, ff := ff, x := x, kl := kl }) :
    step t = .next { t with inputs := rest, regs := { t.regs with
      pend := none
      status := t.regs.status.completed
      outs := compress512 Config.build ff x } } := by
  rw [step_engine hi, engineTurn_some hp, completePending, resultLanes_perm512 rfl rfl]

end Sys2Proof.Machine
end

section
/-! PROOF. The statements about the compression wrapper and its commands (42_compression.md). -/

namespace Sys2Proof.Machine

open Sys2Proof

/-- Settles O40: the mask is its definition, and `FF = 11` is one of the reasons of R74. -/
theorem feedForwardMaskByHalf : Obligations.FeedForwardMaskByHalf :=
  ⟨fun w x i _ => ⟨ffMask_off w x i, ffMask_chaining w x i, ffMask_message w x i⟩,
    fun w hff => (illegal_iff_fields w).2 (.inr (.inl hff))⟩

/-- Settles O41: two compressions differ by their masks, and the mask of a zero half leaves the permutation. -/
theorem feedForwardLaws : Obligations.FeedForwardLaws := by
  intro c x
  obtain ⟨hdm0, hdm1⟩ := compress256_xor c .chaining .off x
  obtain ⟨hmmo0, hmmo1⟩ := compress256_xor c .message .off x
  obtain ⟨hboth0, hboth1⟩ := compress256_xor c .chaining .message x
  rw [ffMask_off, xor_zero] at hdm0 hdm1 hmmo0 hmmo1
  rw [ffMask_chaining_xor_message] at hboth0 hboth1
  refine ⟨⟨hdm0, hdm1, hmmo0, hmmo1, hboth0, hboth1, fun h0 => ?_, fun h1 => ?_⟩, fun i => ⟨?_, ?_, ?_⟩,
    fun h0 h1 => ?_, fun h2 h3 => ?_⟩
  · rw [compress256_chaining, compress256_off, h0, xor_zero]
  · rw [compress256_message, compress256_off, h1, xor_zero]
  · rw [compress512_xor, ffMask_off, xor_zero]
    rfl
  · simp only [compress512_xor, ffMask_off, xor_zero, ffMask_message, Width.lanes, ← not_lt, ite_not]
  · rw [compress512_xor, ffMask_chaining_xor_message]
  · rw [compress512_chaining, compress512_off, h0, h1, xor_zero, xor_zero]
  · rw [compress512_message, compress512_off, h2, h3, xor_zero, xor_zero]

/-- Settles O13: acceptance and `CMD_BUSY` are those of every command, completion writes the lanes of
`compress256_chaining`, and the worked example is computed. -/
theorem dm256FeedsTheChainingLaneForward : Obligations.Dm256FeedsTheChainingLaneForward := by
  refine ⟨decode_encode .dm256, fun s hb => presentCommand_idle .dm256 hb,
    fun s hb => presentCommand_busy .dm256 hb, fun t rest x kl hi hp => ?_, by decide +kernel⟩
  rw [step_completes256 hi hp, compress256_chaining]
  rfl

/-- Settles O14: acceptance and `CMD_BUSY` are those of every command, completion writes the lanes of
`compress512_chaining`, and the worked example is computed. -/
theorem dm512FeedsTheChainingHalfForward : Obligations.Dm512FeedsTheChainingHalfForward := by
  refine ⟨decode_encode .dm512, fun s hb => presentCommand_idle .dm512 hb,
    fun s hb => presentCommand_busy .dm512 hb, fun t rest x kl hi hp => ?_, by decide +kernel, by decide +kernel⟩
  rw [step_completes512 hi hp, compress512_chaining]
  rfl

/-- Settles O15: acceptance and `CMD_BUSY` are those of every command, completion writes the lanes of
`compress256_message`, and the worked example is computed. -/
theorem mmo256FeedsTheMessageLaneForward : Obligations.Mmo256FeedsTheMessageLaneForward := by
  refine ⟨decode_encode .mmo256, fun s hb => presentCommand_idle .mmo256 hb,
    fun s hb => presentCommand_busy .mmo256 hb, fun t rest x kl hi hp => ?_, by decide +kernel⟩
  rw [step_completes256 hi hp, compress256_message]
  rfl

/-- Settles O16: acceptance and `CMD_BUSY` are those of every command, completion writes the lanes of
`compress512_message`, and the worked example is computed. -/
theorem mmo512FeedsTheMessageHalfForward : Obligations.Mmo512FeedsTheMessageHalfForward := by
  refine ⟨decode_encode .mmo512, fun s hb => presentCommand_idle .mmo512 hb,
    fun s hb => presentCommand_busy .mmo512 hb, fun t rest x kl hi hp => ?_, by decide +kernel, by decide +kernel⟩
  rw [step_completes512 hi hp, compress512_message]
  rfl

end Sys2Proof.Machine
end

section
/-! PROOF. What a run under a schedule does to a command in flight and to a quiescent block: accesses until the engine's
turn, and polls of `STATUS` (R61, R205 to R207, R236); what the word of a command holds (R70). -/

namespace Sys2Proof.Machine

open Sys2Proof

/-- The low fields of the word of a command are the codes of its operation, width and feed-forward (R70, R201). -/
theorem encode_codes (i : Instr) :
    i.op = (if (encode i).extractLsb' 0 4 = 0x1#4 then .aesr else .perm) ∧
      i.width.bit = (encode i).extractLsb' 4 1 ∧ i.ff.code = (encode i).extractLsb' 5 2 := by
  cases i <;> decide

/-- A run is a shorter run and then the rest of it. -/
theorem runSteps_add {m : Nat} (n : Nat) {s t : State} (h : runSteps m s = .next t) :
    runSteps (m + n) s = runSteps n t := by
  induction m generalizing s with
  | zero =>
    cases h
    rw [Nat.zero_add]
  | succ m ih =>
    rw [Nat.succ_add]
    cases hs : step s with
    | next u =>
      rw [runSteps_succ _ hs] at h ⊢
      exact ih h
    | fault r => cases r
    | refused r => simp [runSteps, hs] at h

/-- The step of the engine's turn with a command pending is its completion (R205). -/
theorem step_engine_pending {s : State} {p : Pending} {rest : List Input} (hi : s.inputs = .engine :: rest)
    (hp : s.regs.pend = some p) : step s = .next { s with inputs := rest, regs := completePending p s.regs } := by
  rw [step_engine hi, engineTurn_some hp]

/-- With no input left the step is the engine's (R206; assumption 5). -/
theorem step_idle {s : State} (h : s.inputs = []) : step s = idleTurn s := by
  unfold step
  rw [h]

/-- The engine moves at its turn in the schedule, and after the schedule's end (R206; assumption 5). -/
theorem step_engine_or_idle {s : State} (h : s.inputs = [] ∨ ∃ later, s.inputs = .engine :: later) :
    ∃ later, step s = .next { s with inputs := later, regs := engineTurn s.regs } := by
  obtain h | ⟨later, h⟩ := h
  · exact ⟨s.inputs, step_idle h⟩
  · exact ⟨later, step_engine h⟩

/-- A schedule without reset and without undefined accesses is a number of defined accesses and then the engine's turn,
or its end (R206, R207). -/
theorem exists_accesses_before_engine {inputs : List Input} (h : ∀ i ∈ inputs, i.keepsRunning = true) :
    ∃ (accesses : List Access) (rest : List Input), inputs = accesses.map Input.access ++ rest ∧
      (∀ a ∈ accesses, a.wellFormed = true) ∧ (rest = [] ∨ ∃ later, rest = .engine :: later) := by
  induction inputs with
  | nil => exact ⟨[], [], rfl, nofun, .inl rfl⟩
  | cons i is ih =>
    obtain ⟨hi, his⟩ := List.forall_mem_cons.1 h
    cases i with
    | access a =>
      obtain ⟨accesses, rest, rfl, hacc, hrest⟩ := ih his
      exact ⟨a :: accesses, rest, rfl, List.forall_mem_cons.2 ⟨hi, hacc⟩, hrest⟩
    | engine => exact ⟨[], .engine :: is, rfl, nofun, .inr ⟨is, rfl⟩⟩
    | resetAsserted => cases hi
    | resetReleased => cases hi

/-- A host that only polls `STATUS` reads it or leaves the turn to the engine (R236). -/
theorem Input.pollsStatus_iff (i : Input) : i.pollsStatus = true ↔ i = .access (.rd32 0x08) ∨ i = .engine := by
  cases i <;> simp [Input.pollsStatus]

/-- A poll of `STATUS` and an engine's turn change no register of a quiescent block (R56, R207). -/
theorem step_poll_quiescent {s : State} {i : Input} {rest : List Input} (hi : s.inputs = i :: rest)
    (hpoll : i.pollsStatus = true) (hr : s.inReset = false) (hq : Quiescent s) :
    ∃ t, step s = .next t ∧ t.inReset = false ∧ t.inputs = rest ∧ t.regs = s.regs := by
  obtain rfl | rfl := i.pollsStatus_iff.1 hpoll
  · exact ⟨_, step_read ⟨hr, hi⟩ rfl (by decide), hr, rfl, rfl⟩
  · exact ⟨_, step_engine hi, hr, rfl, engineTurn_none hq⟩

/-- Any number of polls of `STATUS` and engine's turns change no register of a quiescent block (R236). -/
theorem runSteps_polls_quiescent (polls : List Input) {s : State} (hi : s.inputs = polls)
    (hpolls : ∀ i ∈ polls, i.pollsStatus = true) (hr : s.inReset = false) (hq : Quiescent s) :
    ∃ t, runSteps polls.length s = .next t ∧ t.regs = s.regs := by
  induction polls generalizing s with
  | nil => exact ⟨s, rfl, rfl⟩
  | cons i is ih =>
    obtain ⟨hpoll, hrest⟩ := List.forall_mem_cons.1 hpolls
    obtain ⟨u, hu, hur, hui, hregs⟩ := step_poll_quiescent hi hpoll hr hq
    obtain ⟨t, ht, htregs⟩ := ih hui hrest hur (by rwa [Quiescent, hregs])
    exact ⟨t, (runSteps_succ _ hu).trans ht, htregs.trans hregs⟩

end Sys2Proof.Machine
end

section
/-! PROOF. The statements about acceptance, completion and progress (60_exceptions.md). -/

namespace Sys2Proof.Machine

open Sys2Proof

/-- Settles O8: a legal word is that of a command, whose fields are those of the word. -/
theorem commandWriteFollowsTheAcceptanceRule : Obligations.CommandWriteFollowsTheAcceptanceRule := by
  refine fun s rest w hport => ⟨step_command_busy hport, fun hb hw => step_illegal_idle hport hw hb, fun hb hw => ?_⟩
  obtain ⟨i, rfl⟩ := (legal_iff_exists_encode w).1 hw
  obtain ⟨hop, hwidth, hff⟩ := encode_codes i
  exact ⟨pendingOf i s.regs, step_command_idle hport (decode_encode i) hb, hop, hwidth, hff, rfl, rfl⟩

/-- Settles O9: a rejection writes `STATUS` alone, whatever `ERR` and `ECODE` were. -/
theorem rejectionRecordsOnlyTheLatestCode : Obligations.RejectionRecordsOnlyTheLatestCode :=
  fun _ _ _ hport => ⟨fun hb => ⟨_, step_command_busy hport hb, rfl, rfl, rfl⟩,
    fun hb hw => ⟨_, step_illegal_idle hport hw hb, rfl, rfl, rfl⟩⟩

/-- Settles O18: `resultLanes` for each kind of record. -/
theorem completionWritesTheResult : Obligations.CompletionWritesTheResult := by
  refine fun s rest hi => ⟨fun hp => ?_, fun p hp => ⟨resultLanes p s.regs.outs, step_engine_pending hi hp,
    fun ho => resultLanes_aesr ho _, fun ho hw => resultLanes_perm256 ho hw _,
    fun ho hw => resultLanes_perm512 ho hw _⟩⟩
  rw [step_engine hi, engineTurn_none hp]

/-- Settles O42: the accesses before the engine's turn leave the command in flight, and the turn completes it. -/
theorem acceptedCommandCompletes : Obligations.AcceptedCommandCompletes := by
  intro s p hr hb hp hk
  obtain ⟨accesses, rest, hi, hacc, hrest⟩ := exists_accesses_before_engine hk
  obtain ⟨u, hu, -, hui, hup, -, huc, huo⟩ := runSteps_inFlight accesses hacc hr hb hi
  obtain ⟨later, hlast⟩ := step_engine_or_idle (hui ▸ hrest)
  rw [engineTurn_some (hup.trans hp)] at hlast
  exact ⟨accesses.length + 1, _, by simp [hi], (runSteps_add 1 hu).trans (runSteps_succ 0 hlast), rfl, rfl, rfl, huc,
    congrArg (resultLanes p) huo⟩

/-- Settles O51: `CMD_BUSY` leaves the earlier command to complete with `ERR` set, and an illegal word leaves an idle
block quiescent, where polling changes no register. -/
theorem doneBelongsToTheLastAcceptedCommand : Obligations.DoneBelongsToTheLastAcceptedCommand := by
  refine ⟨fun s p w rest hport hb hp => ?_, fun polls s w hport hw hb hq hpolls => ?_⟩
  · have hcomplete := step_engine_pending (s := { s with
      inputs := .engine :: rest, regs := raiseCmdError .cmdBusy s.regs }) rfl hp
    exact ⟨_, (runSteps_succ 1 (step_command_busy hport hb)).trans (runSteps_succ 0 hcomplete), rfl, rfl, rfl, rfl⟩
  · obtain ⟨t, ht, hregs⟩ := runSteps_polls_quiescent (s := { s with
      inputs := polls, regs := raiseCmdError .illegalCmd s.regs }) polls rfl hpolls hport.1 hq
    exact ⟨t, (runSteps_succ _ (step_illegal_idle hport hw hb)).trans ht, by rw [hregs]; rfl, by rw [hregs]; rfl⟩

end Sys2Proof.Machine
end

section
/-! PROOF. What a step does at the reset input and during reset, and what every other step does to a command in flight
(R205, R207, R230, R231). -/

namespace Sys2Proof.Machine

open Sys2Proof

/-- With an input left the step is that of the agent it names (R207). -/
theorem step_takeInput {s : State} {i : Input} {rest : List Input} (h : s.inputs = i :: rest) :
    step s = takeInput i { s with inputs := rest } := by
  unfold step
  rw [h]

/-- The step at which reset is asserted (R230). -/
theorem step_resetAsserted {s : State} {rest : List Input} (h : s.inputs = .resetAsserted :: rest) :
    step s = .next { s with inputs := rest, inReset := true, regs := Regs.reset } :=
  step_takeInput h

/-- The step at which reset is released changes no register (R231). -/
theorem step_resetReleased {s : State} {rest : List Input} (h : s.inputs = .resetReleased :: rest) :
    step s = .next { s with inputs := rest, inReset := false } :=
  step_takeInput h

/-- During reset the port looks at nothing of an access (R231; assumption 14). -/
theorem performAccess_inReset (a : Access) {s : State} (hr : s.inReset = true) :
    performAccess a s = .refused .accessDuringReset :=
  if_pos hr

/-- An access that a block with a command in flight answers leaves the command pending (R237). -/
theorem performAccess_keeps_pend {a : Access} {s t : State} (h : performAccess a s = .next t)
    (hb : s.regs.status.busy = true) : t.regs.pend = s.regs.pend := by
  obtain ⟨hr, hd, -⟩ := performAccess_next h
  have ha : a.wellFormed = true := by simp [Access.wellFormed, hd]
  obtain ⟨u, hu, -, -, hp, -⟩ := performAccess_inFlight ha hr hb
  obtain rfl : u = t := Host.Outcome.next.inj (hu.symm.trans h)
  exact hp

/-- Every step but that of asserted reset leaves a command in flight pending or completes it (R205, R230). -/
theorem step_keeps_or_completes {s t : State} {p : Pending} (hb : s.regs.status.busy = true)
    (hp : s.regs.pend = some p) (h : step s = .next t) (hreset : ∀ rest, s.inputs ≠ .resetAsserted :: rest) :
    t.regs.pend = some p ∨ t.regs = completePending p s.regs := by
  cases hi : s.inputs with
  | nil =>
    rw [step_idle hi] at h
    cases h
    exact .inr (engineTurn_some hp)
  | cons i rest =>
    cases i with
    | access a =>
      rw [step_takeInput hi] at h
      exact .inl ((performAccess_keeps_pend h hb).trans hp)
    | engine =>
      rw [step_engine_pending hi hp] at h
      cases h
      exact .inr rfl
    | resetAsserted => exact absurd hi (hreset rest)
    | resetReleased =>
      rw [step_resetReleased hi] at h
      cases h
      exact .inl hp

/-- `STATUS` after an acceptance (R25, R201). -/
theorem Status.word_accepted (st : Status) : st.accepted.word = 0x00000001#32 :=
  (by decide : Status.word { busy := true, done := false, err := false, ecode := 0 } = 0x00000001#32)

/-- `STATUS` after an acceptance, a `CMD_BUSY` and the completion (R25, R201, R205). -/
theorem Status.word_completed_cmdBusy_accepted (st : Status) :
    (Status.rejected .cmdBusy st.accepted).completed.word = 0x00000026#32 :=
  (by decide : Status.word { busy := false, done := true, err := true, ecode := 2 } = 0x00000026#32)

end Sys2Proof.Machine
end

section
/-! PROOF. The statements about reset and the schedule of two commands (70_reset_and_hazards.md). -/

namespace Sys2Proof.Machine

open Sys2Proof

/-- Settles O48: the step of asserted reset, and `step_keeps_or_completes` for every other. -/
theorem resetAbandonsTheCommandInFlight : Obligations.ResetAbandonsTheCommandInFlight := by
  refine ⟨fun s rest hi => step_resetAsserted hi, fun s t p hb hp hst hreset => ?_⟩
  obtain hkept | hdone := step_keeps_or_completes hb hp hst hreset
  · exact .inl hkept
  · rw [hdone]
    exact .inr ⟨rfl, rfl, rfl⟩

/-- Settles O50: with the engine's turn between the writes the second finds the block idle, and is accepted; without it
the second is `CMD_BUSY`, which the completion of the first leaves in `STATUS`. -/
theorem scheduleDecidesTheSecondCommand : Obligations.ScheduleDecidesTheSecondCommand := by
  refine fun s i j rest hr hb => ⟨fun hi => ?_, fun hi => ?_⟩
  · have hfirst := step_command_idle ⟨hr, hi⟩ (decode_encode i) hb
    have hengine := step_engine_pending (p := pendingOf i s.regs) (s := { s with
      inputs := .engine :: .access (.wr32 0x04 (encode j)) :: rest, regs := latchCommand i s.regs }) rfl rfl
    have hsecond := step_command_idle (s := { s with
      inputs := .access (.wr32 0x04 (encode j)) :: rest
      regs := completePending (pendingOf i s.regs) (latchCommand i s.regs) }) ⟨hr, rfl⟩ (decode_encode j) rfl
    exact ⟨_, (runSteps_succ 2 hfirst).trans ((runSteps_succ 1 hengine).trans (runSteps_succ 0 hsecond)), rfl,
      Status.word_accepted s.regs.status⟩
  · have hfirst := step_command_idle ⟨hr, hi⟩ (decode_encode i) hb
    have hsecond := step_command_busy (s := { s with
      inputs := .access (.wr32 0x04 (encode j)) :: .engine :: rest, regs := latchCommand i s.regs }) ⟨hr, rfl⟩ rfl
    have hengine := step_engine_pending (p := pendingOf i s.regs) (s := { s with
      inputs := .engine :: rest, regs := raiseCmdError .cmdBusy (latchCommand i s.regs) }) rfl rfl
    exact ⟨_, (runSteps_succ 2 hfirst).trans ((runSteps_succ 1 hsecond).trans (runSteps_succ 0 hengine)), rfl,
      Status.word_completed_cmdBusy_accepted s.regs.status⟩

/-- Settles O49: the port refuses during reset, and the release leaves the registers as reset set them. -/
theorem accessesDuringResetAreRefused : Obligations.AccessesDuringResetAreRefused := by
  refine ⟨fun s a rest hr hi => ?_, fun s rest hi => ?_⟩
  · rw [step_takeInput hi]
    exact performAccess_inReset a hr
  · have hreleased := step_resetReleased (s := { s with
      inputs := .resetReleased :: rest, inReset := true, regs := Regs.reset }) rfl
    exact (runSteps_succ 1 (step_resetAsserted hi)).trans (runSteps_succ 0 hreleased)

end Sys2Proof.Machine
end

section
/-! PROOF. The reason the decoder gives for an illegal word, by the values of its fields (R74). -/

namespace Sys2Proof.Machine

open Sys2Proof

theorem decode_reservedBits {w : Word} (hrsv : (fieldsOf w).rsv ≠ 0) : decode w = .illegal .reservedBits :=
  if_pos hrsv

theorem decode_reservedOpcode {w : Word} (hrsv : (fieldsOf w).rsv = 0) (haesr : (fieldsOf w).opc ≠ 0x1#4)
    (hperm : (fieldsOf w).opc ≠ 0x2#4) : decode w = .illegal .reservedOpcode := by
  simp [decode, decodeFields, hrsv, haesr, hperm]

theorem decode_aesrFields {w : Word} (hrsv : (fieldsOf w).rsv = 0) (hopc : (fieldsOf w).opc = 0x1#4)
    (hfields : ¬((fieldsOf w).w = 0 ∧ (fieldsOf w).ff = 0)) : decode w = .illegal .aesrFields := by
  rw [decode, decodeFields, if_neg (not_not.2 hrsv), if_pos hopc, if_neg hfields]

theorem decode_reservedFeedForward {w : Word} (hrsv : (fieldsOf w).rsv = 0) (hopc : (fieldsOf w).opc = 0x2#4)
    (hff : (fieldsOf w).ff = 0b11#2) : decode w = .illegal .reservedFeedForward := by
  simp [decode, decodeFields, decodePerm, hrsv, hopc, hff]

end Sys2Proof.Machine
end

section
/-! PROOF. The statements about the published values (95_test_vectors.md sections 2 and 3). -/

namespace Sys2Proof.Machine

open Sys2Proof

/-- Settles O1: each legal word is the word of its command, and the fields of each other word give the reason. -/
theorem wordsOfTheEncodingTableDecode : Obligations.WordsOfTheEncodingTableDecode := by
  refine ⟨decode_encode .aesr, decode_encode .perm256, decode_encode .perm512, decode_encode .dm256,
    decode_encode .dm512, decode_encode .mmo256, decode_encode .mmo512,
    decode_reservedOpcode ?_ ?_ ?_, decode_reservedOpcode ?_ ?_ ?_, decode_reservedOpcode ?_ ?_ ?_,
    decode_aesrFields ?_ ?_ ?_, decode_aesrFields ?_ ?_ ?_,
    decode_reservedFeedForward ?_ ?_ ?_, decode_reservedFeedForward ?_ ?_ ?_,
    decode_reservedBits ?_, decode_reservedBits ?_, decode_reservedBits ?_⟩ <;> decide

/-- Settles O37: the first three steps are computed, and the round is their composition, XOR the round key (R105). -/
theorem fipsRoundOneValues : Obligations.FipsRoundOneValues := by
  have hsub : subBytes 0x0848f8e92a8dc69a2be2f4a0bee33d19#128 = 0x3052411ee55db4b8f198bfe0ae1127d4#128 := by decide
  have hshift : shiftRows 0x3052411ee55db4b8f198bfe0ae1127d4#128 = 0xe598271ef11141b8ae52b4e0305dbfd4#128 := by decide
  have hmix : mixColumns 0xe598271ef11141b8ae52b4e0305dbfd4#128 = 0x4c2606287ad3f8489a19cbe0e5816604#128 := by decide
  refine ⟨hsub, hshift, hmix, ?_⟩
  rw [aesRound, hsub, hshift, hmix, addRoundKey]
  decide

end Sys2Proof.Machine
end
